-- ==== Sys2Proof/Word.lean ====
section
/-! DEFINITION. The word types of the block: bytes (UART characters, response data) and the 12-bit event word. -/

namespace Sys2Proof

/-- An 8-bit value: a UART byte, an ASCII character, a checksum, a response's data (R10, R71, R76). -/
abbrev Byte := BitVec 8

/-- The 12-bit event word, `op` in bits 11..8 and `arg` in bits 7..0 (R71). -/
abbrev EventWord := BitVec 12

end Sys2Proof
end

