-- ==== Sys2Proof/Config.lean ====
section
/-! DEFINITION. The parameters of the block: the numbers R9 fixes, under the names R9 gives them, and the two OPEN
parameters of 92_eei_decisions.md, which no rule reads and which have no body. The numbers are the source's unaudited
literals (R5, D31): log 16. -/

namespace Sys2Proof.Config

/-- `START_MARKER` (R9). -/
abbrev startMarker : Byte := 0x02

/-- `END_MARKER` (R9). -/
abbrev endMarker : Byte := 0x03

/-- `PAYLOAD_LEN` (R9): hex characters between the markers. -/
abbrev payloadLen : Nat := 12

/-- `MFR_CHARS` (R9). -/
abbrev mfrChars : Nat := 4

/-- `ID_CHARS` (R9). -/
abbrev idChars : Nat := 6

/-- `CKS_CHARS` (R9). -/
abbrev cksChars : Nat := 2

/-- `WG_CAPACITY` (R9): capacity of the bit buffer, in bits. -/
abbrev wgCapacity : Nat := 100

/-- The two members of `WG_LENGTHS` (R9), as values of `CFG.LEN`. -/
abbrev wgShort : BitVec 7 := 26

/-- The longer member of `WG_LENGTHS` (R9). -/
abbrev wgLong : BitVec 7 := 35

/-- A line edge, the type of `WG_ACTIVE_EDGE`. -/
inductive Edge where
  | falling
  | rising
deriving DecidableEq, Repr, Inhabited

/-- `WG_ACTIVE_EDGE` (R221, U15), OPEN: which line edge counts as a bit. No rule of the block reads it. -/
opaque wgActiveEdge : Edge

/-- `PLATFORM_BASE` (R59, U16), OPEN: where a platform maps the block. No rule of the block reads it. -/
opaque platformBase : Nat

end Sys2Proof.Config
end

