-- ==== Sys2Proof/Syntax.lean ====
section
/-! DEFINITION. The events of event interface version 1 (R70, R72), one constructor for each row of the opcode table, and
the ports that deliver them (R77, R78). -/

namespace Sys2Proof

/-- `CFG.MODE` and CONFIG's `mode` bit: 0 is UART, 1 is WIEGAND (R22, R73). -/
inductive Mode where
  | uart
  | wiegand
deriving DecidableEq, Repr

/-- The eight events of R72. Each operand has exactly the width of its field in the event word (R73). -/
inductive Instr where
  /-- NOP (R160). -/
  | nop
  /-- UART_BYTE `b`: the source's `feed(byte)` (R100). -/
  | uartByte (b : Byte)
  /-- WBIT0: the source's `onZeroBit` (R130). -/
  | wbit0
  /-- WBIT1: the source's `onOneBit` (R131). -/
  | wbit1
  /-- POLL: the source's `isIdAvailable` (R165). -/
  | poll
  /-- READID: the source's `readId` (R166). -/
  | readid
  /-- CONFIG `mode`, `len` (R168). With `mode` UART the `len` bits are part of the word and are ignored (R73). -/
  | config (mode : Mode) (len : BitVec 7)
  /-- HEXDEC `c` (R170). -/
  | hexdec (c : Byte)
deriving DecidableEq, Repr

/-- The ports that deliver events (R77, R78). -/
inductive Port where
  /-- `d0_evt`: the callback context's 0-bit line. -/
  | d0
  /-- `d1_evt`: the callback context's 1-bit line. -/
  | d1
  /-- `rx`: the transport's bytes. -/
  | rx
  /-- The command port of the polling context. -/
  | cmd
deriving DecidableEq, Repr

/-- One event as an agent delivers it: on a port. -/
structure Event where
  port : Port
  instr : Instr
deriving DecidableEq, Repr

end Sys2Proof
end

