-- ==== Sys2Proof/WellFormed.lean ====
section
/-! DEFINITION. The three checks of the spec on what may reach the block: an event as syntax (R73), a delivered event
(R78, R197: which port may deliver which event) and an event word (R74: which words are illegal). -/

namespace Sys2Proof

/-- An event is well-formed when its operands fit their fields. The fields' types have exactly the encoding's widths
(R73), so every event is (log 11). -/
def Instr.wellFormed : Instr → Bool
  | .nop => true
  | .uartByte _ => true
  | .wbit0 => true
  | .wbit1 => true
  | .poll => true
  | .readid => true
  | .config _ _ => true
  | .hexdec _ => true

/-- Which events a port can deliver: `d0_evt` only WBIT0, `d1_evt` only WBIT1, `rx` only UART_BYTE, the command port
every event (R78, R197). -/
def Port.carries : Port → Instr → Bool
  | .d0, .wbit0 => true
  | .d1, .wbit1 => true
  | .rx, .uartByte _ => true
  | .cmd, _ => true
  | _, _ => false

/-- A delivered event is well-formed when its event is and its port can deliver it. -/
def Event.wellFormed (e : Event) : Bool :=
  e.instr.wellFormed && e.port.carries e.instr

/-- `ev[11:8]` (R71). -/
def EventWord.op (w : EventWord) : BitVec 4 := w.extractLsb' 8 4

/-- `ev[7:0]` (R71). -/
def EventWord.arg (w : EventWord) : Byte := w.extractLsb' 0 8

/-- The words R74 does not call illegal: (a) no `op` in 0x8..0xF, and (b) `arg` zero when `op` is one of
0x0, 0x2, 0x3, 0x4, 0x5. -/
def EventWord.legal (w : EventWord) : Bool :=
  decide (w.op < 0x8) &&
    (!([0x0, 0x2, 0x3, 0x4, 0x5].contains w.op) || w.arg == 0x00)

end Sys2Proof
end

