-- ==== Sys2Proof/Decode.lean ====
section
/-! DEFINITION. The decoder of R75, total on the 4096 event words (none stands for ILLEGAL, R74), and after it the
encoder, written from the opcode map of R72 and the argument fields of R73. -/

namespace Sys2Proof

/-- CONFIG's `mode = ev[7]`: 0 is UART, 1 is WIEGAND (R73). -/
def decodeMode (m : Bool) : Mode := if m then .wiegand else .uart

/-- An event without an argument: its `arg` must be 0x00 (R73, R74). -/
def decodeBare (i : Instr) (arg : Byte) : Option Instr := if arg = 0x00 then some i else none

/-- R75: each event word is one of the eight events or, as none, illegal. -/
def decode (w : EventWord) : Option Instr :=
  match w.op.toNat with
  | 0x0 => decodeBare .nop w.arg
  | 0x1 => some (.uartByte w.arg)
  | 0x2 => decodeBare .wbit0 w.arg
  | 0x3 => decodeBare .wbit1 w.arg
  | 0x4 => decodeBare .poll w.arg
  | 0x5 => decodeBare .readid w.arg
  | 0x6 => some (.config (decodeMode (w.arg.getLsbD 7)) (w.arg.extractLsb' 0 7))
  | 0x7 => some (.hexdec w.arg)
  | _ => none

/-- The event word on the twelve wires of `cmd_word`, from a table word of `nbits` bits numbered from bit 0. Bits 15..12
of a word laid out in whole bytes reach no wire (log 10). -/
def tableWord (nbits w : Nat) : EventWord := BitVec.ofNat 12 (w % 2 ^ nbits)

/-- What the decoder reads from a table word. -/
def decodeTableWord (nbits w : Nat) : Option Instr := decode (tableWord nbits w)

/-- CONFIG's `mode` bit (R73). -/
def encodeMode : Mode → BitVec 1
  | .uart => 0
  | .wiegand => 1

/-- The event word of an event: `op` of R72 above the argument of R73. -/
def encode : Instr → EventWord
  | .nop => 0x000
  | .uartByte b => 0x1#4 ++ b
  | .wbit0 => 0x200
  | .wbit1 => 0x300
  | .poll => 0x400
  | .readid => 0x500
  | .config mode len => 0x6#4 ++ (encodeMode mode ++ len)
  | .hexdec c => 0x7#4 ++ c

end Sys2Proof
end

