-- ==== Sys2Proof/Machine/State.lean ====
section
/-! DEFINITION. The state of the block (10_state.md R20 to R35), the queues of its three agents (R32, R50), the reasons a
step can stop, and the state after reset (R35, R210). -/

namespace Sys2Proof.Machine

/-- `CFG` (R22). Legal combinations are Safety's `Cfg.legal`. -/
structure Cfg where
  /-- `CFG.CONFIGURED`. -/
  configured : Bool
  /-- `CFG.MODE`. -/
  mode : Mode
  /-- `CFG.LEN`. -/
  len : BitVec 7
deriving DecidableEq, Repr

/-- `ustate`: 0 is IDLE, 1 is READING (R23). -/
inductive UartState where
  | idle
  | reading
deriving DecidableEq, Repr

/-- A TagRecord, the type of `TR` and `RO` (R26, R29). -/
structure TagRecord where
  /-- `manufacturerCode`. -/
  mfr : BitVec 16
  /-- The card or tag identifier. -/
  id : BitVec 24
  /-- The declared checksum. -/
  cks : Byte
  /-- Set only by a successful validation. -/
  valid : Bool
  /-- `rawPayload`: the undecoded payload. -/
  raw : Vector Byte 12
deriving DecidableEq, Repr

/-- `ubuf` at reset and between frames: all 0x00 (R24). -/
def zeroBytes : Vector Byte 12 := Vector.replicate 12 0x00

/-- `wbuf` at reset and at the start of a cycle: all 0 (R25). -/
def zeroBits : Vector Bool 100 := Vector.replicate 100 false

/-- `ZeroRecord` (R27). -/
def TagRecord.zero : TagRecord := { mfr := 0, id := 0, cks := 0, valid := false, raw := zeroBytes }

/-- The response statuses of R76. Code 7 names nothing and is never produced (R76, U14; log 8). -/
inductive Status where
  | ok
  | illegal
  | notConfigured
  | modeMismatch
  | cfgError
  | hexInvalid
  | busy
deriving DecidableEq, Repr

/-- The 3-bit code on `resp_status` (R76). -/
def Status.code : Status → BitVec 3
  | .ok => 0
  | .illegal => 1
  | .notConfigured => 2
  | .modeMismatch => 3
  | .cfgError => 4
  | .hexInvalid => 5
  | .busy => 6

/-- The pulses the edge detector raises in one clock cycle (R77, D24). -/
inductive Pulse where
  /-- `d0_evt` alone. -/
  | zero
  /-- `d1_evt` alone. -/
  | one
  /-- Both lines in the same cycle (D24; log 7). -/
  | both
deriving DecidableEq, Repr

/-- What a coming clock cycle holds: `rst`, and which agents present something (R78; log 1). -/
structure Cycle where
  rst : Bool
  callback : Bool
  transport : Bool
  host : Bool
deriving DecidableEq, Repr

/-- The whole state: the block's registers (R35), then the queues its agents own (R32) and the schedule that interleaves
them (R54; log 1). -/
structure State where
  /-- `CFG` (R22). -/
  cfg : Cfg
  /-- `ustate` (R23). -/
  ustate : UartState
  /-- `ucount` (R24): payload bytes captured. -/
  ucount : BitVec 4
  /-- `ubuf` (R24), indexed by arrival order. -/
  ubuf : Vector Byte 12
  /-- `wcount` (R25): bits received in this cycle. -/
  wcount : BitVec 7
  /-- `wbuf` (R25), indexed by arrival order. -/
  wbuf : Vector Bool 100
  /-- `TR` (R26). -/
  tr : TagRecord
  /-- `available` (R28). -/
  available : Bool
  /-- `RO` (R29). -/
  ro : TagRecord
  /-- `resp_valid` (R76). -/
  respValid : Bool
  /-- `resp_status` (R76). -/
  respStatus : Status
  /-- `resp_data` (R76). -/
  respData : Byte
  /-- The transport's bytes, next first (R32). -/
  transport : List Byte
  /-- The callback context's pulses, next first (R32). -/
  callback : List Pulse
  /-- The host's event words, next first (R32). -/
  host : List EventWord
  /-- The coming clock cycles, next first (log 1). -/
  schedule : List Cycle
deriving DecidableEq, Repr

/-- The block has no fault state and no traps (R194, R203): nothing stops it with a fault (log 18). -/
inductive Fault where
deriving DecidableEq, Repr

/-- The reasons the model has no meaning for an event. -/
inductive Refusal where
  /-- An arm of `exec` without a meaning: raised by no arm, since every event has one. Safe. -/
  | notModelled (mnemonic : String)
deriving DecidableEq, Repr

/-- The state after reset: every register at its value in R35, no agent with anything to present (log 2). -/
def State.reset : State where
  cfg := { configured := false, mode := .uart, len := 0 }
  ustate := .idle
  ucount := 0
  ubuf := zeroBytes
  wcount := 0
  wbuf := zeroBits
  tr := TagRecord.zero
  available := false
  ro := TagRecord.zero
  respValid := false
  respStatus := .ok
  respData := 0
  transport := []
  callback := []
  host := []
  schedule := []

end Sys2Proof.Machine
end

