-- ==== Sys2Proof/Machine/Operands.lean ====
section
/-! DEFINITION. How operands and fields are read: hex characters and hex fields (R80 to R83), and the bit fields of a
Wiegand frame (R84). -/

namespace Sys2Proof.Machine

/-- `HexNibble(c)` (R81): the value of a hex digit and whether the character is one. Lower case is accepted; any other
character gives 0 and false (D9; log 9). -/
def hexNibble (c : Byte) : BitVec 4 × Bool :=
  if 0x30 ≤ c ∧ c ≤ 0x39 then ((c - 0x30).setWidth 4, true)
  else if 0x41 ≤ c ∧ c ≤ 0x46 then ((c - 0x41 + 10).setWidth 4, true)
  else if 0x61 ≤ c ∧ c ≤ 0x66 then ((c - 0x61 + 10).setWidth 4, true)
  else (0, false)

/-- One turn of `HexField`'s loop (R82). -/
def hexStep (acc : Nat × Bool) (c : Byte) : Nat × Bool :=
  (acc.1 <<< 4 ||| (hexNibble c).1.toNat, acc.2 && (hexNibble c).2)

/-- `HexField(c_0 .. c_{n-1})` (R82): the first character is the most significant. The value is below `16 ^ n`
(`hexField_lt`), so a reader narrows it to `4 n` bits without loss. -/
def hexField (cs : List Byte) : Nat × Bool := cs.foldl hexStep (0, true)

/-- Payload characters `start .. start + n - 1` (R83). -/
def chars (buf : Vector Byte 12) (start n : Nat) : List Byte := (buf.toList.drop start).take n

/-- The manufacturer code's characters, 0 to 3 (R83). -/
def mfrField (buf : Vector Byte 12) : Nat × Bool := hexField (chars buf 0 Config.mfrChars)

/-- The id's characters, 4 to 9 (R83). -/
def idField (buf : Vector Byte 12) : Nat × Bool :=
  hexField (chars buf Config.mfrChars Config.idChars)

/-- The declared checksum's characters, 10 and 11 (R83). -/
def cksField (buf : Vector Byte 12) : Nat × Bool :=
  hexField (chars buf (Config.mfrChars + Config.idChars) Config.cksChars)

/-- The checksum pair `p_j`, characters `2j` and `2j + 1` (R83). -/
def pairField (buf : Vector Byte 12) (j : Nat) : Byte :=
  BitVec.ofNat 8 (hexField (chars buf (2 * j) 2)).1

/-- The bit `wbuf[i]` as a number. -/
def bitAt (wbuf : Vector Bool 100) (i : Nat) : Nat := (wbuf[i]?.getD false).toNat

/-- `Field(start, n)` (R84): the sum of `wbuf[start + i] << (n - 1 - i)`, an `n`-bit value, most significant first. -/
def field (wbuf : Vector Bool 100) (start n : Nat) : BitVec n :=
  BitVec.ofNat n ((List.range n).map fun i => bitAt wbuf (start + i) <<< (n - 1 - i)).sum

/-- `popcount(wbuf[lo .. hi])`, the number of 1 bits among the indices `lo` to `hi` (R12, R136). -/
def popcount (wbuf : Vector Bool 100) (lo hi : Nat) : Nat :=
  ((List.range (hi + 1 - lo)).map fun i => bitAt wbuf (lo + i)).sum

end Sys2Proof.Machine
end

