-- ==== Sys2Proof/Machine/Flags.lean ====
section
/-! DEFINITION. What validates a record (R104, R107, R136) and what decides an event's status (R192). -/

namespace Sys2Proof.Machine

/-- `UartChecksum` (R107): the exclusive-OR of the five pairs of the first ten payload characters, from 0x00. No CRC
(R3). -/
def uartChecksum (buf : Vector Byte 12) : Byte :=
  (List.range 5).foldl (fun x j => x ^^^ pairField buf j) 0x00

/-- `valid` of a UART record (R104): the checksums agree and every character of every field is a hex digit. -/
def uartValid (buf : Vector Byte 12) : Bool :=
  uartChecksum buf == BitVec.ofNat 8 (cksField buf).1 &&
    (mfrField buf).2 && (idField buf).2 && (cksField buf).2

/-- `valid` of a 26-bit Wiegand record (R136): `evenCount mod 2 == evenBit` and `oddCount mod 2 != oddBit`. -/
def parity26 (wbuf : Vector Bool 100) : Bool :=
  popcount wbuf 1 12 % 2 == bitAt wbuf 0 && popcount wbuf 13 24 % 2 != bitAt wbuf 25

/-- The status that turns an event away before it does anything, in the order of R192: NOT_CONFIGURED, then
MODE_MISMATCH when the event belongs to one decoder. None when the event goes ahead. -/
def State.gate (need : Option Mode) (s : State) : Option Status :=
  if s.cfg.configured = false then some .notConfigured
  else match need with
    | none => none
    | some m => if s.cfg.mode = m then none else some .modeMismatch

/-- `rx_ready` (R78): 0 in a reset cycle, and 0 while a byte would be answered BUSY. -/
def State.rxReady (rst : Bool) (s : State) : Bool :=
  !rst && !(s.cfg.configured && s.cfg.mode == .uart && s.available)

/-- `zext_8` of a one-bit value, the data of POLL's, READID's and UART_BYTE's responses. -/
def bitData (b : Bool) : Byte := if b then 0x01 else 0x00

end Sys2Proof.Machine
end

