-- ==== Sys2Proof/Machine/Ops.lean ====
section
/-! DEFINITION. The named operations on State that the events share: the response, the UART buffer, the bit buffer, the
record and its read-out, the resets. There is no exception to take and none to return from (R194, R195). -/

namespace Sys2Proof.Machine

/-- Run `f` on the state an outcome ends in; a fault or a refusal stays as it is. -/
def andThen (o : Host.Outcome State Fault Refusal) (f : State → Host.Outcome State Fault Refusal) :
    Host.Outcome State Fault Refusal :=
  match o with
  | .next s => f s
  | .fault r => .fault r
  | .refused r => .refused r

/-- `respond(status, data)` (R13, R76): the response registers of a command-port event. -/
def State.respond (st : Status) (data : Byte) (s : State) : State :=
  { s with respValid := true, respStatus := st, respData := data }

/-- A cycle without a command-port event leaves `resp_valid` 0 (R76). The other two response registers keep their values
(log 4). -/
def State.dropResponse (s : State) : State := { s with respValid := false }

/-- The response registers as they stand in `old`: the response to an event of `rx`, `d0_evt` or `d1_evt` is discarded
(R76). -/
def State.keepResponse (old s : State) : State :=
  { s with respValid := old.respValid, respStatus := old.respStatus, respData := old.respData }

/-- Leave READING: IDLE, `ucount` 0, `ubuf` all 0x00 (R102, R103, R166). -/
def State.clearUart (s : State) : State :=
  { s with ustate := .idle, ucount := 0, ubuf := zeroBytes }

/-- A start marker (R101). -/
def State.startFrame (s : State) : State :=
  { s with ubuf := zeroBytes, ucount := 0, tr := TagRecord.zero, ustate := .reading }

/-- Append a payload byte at `ucount` (R103). -/
def State.pushByte (b : Byte) (s : State) : State :=
  { s with ubuf := s.ubuf.setIfInBounds s.ucount.toNat b, ucount := s.ucount + 1 }

/-- Clear the bit buffer and its counter (R166). -/
def State.clearBits (s : State) : State := { s with wcount := 0, wbuf := zeroBits }

/-- Record one bit at `wcount` (R132). -/
def State.pushBit (v : Bool) (s : State) : State :=
  { s with wbuf := s.wbuf.setIfInBounds s.wcount.toNat v, wcount := s.wcount + 1 }

/-- Finalize: the record stands in `TR` and is available (R104, R137). -/
def State.finalize (r : TagRecord) (s : State) : State := { s with tr := r, available := true }

/-- Read out: `RO` takes `TR`, `TR` is cleared, nothing is available (R166). -/
def State.takeRecord (s : State) : State :=
  { s with ro := s.tr, tr := TagRecord.zero, available := false }

/-- Every register of R35 but the response registers at its reset value, then `CFG` as given (R168). -/
def State.configure (c : Cfg) (s : State) : State :=
  { State.reset with
    cfg := c
    respValid := s.respValid, respStatus := s.respStatus, respData := s.respData
    transport := s.transport, callback := s.callback, host := s.host, schedule := s.schedule }

/-- Block reset (R210): every register of R35 at its reset value. The agents are outside the block and keep what they have
still to present (R32; log 6). -/
def State.blockReset (s : State) : State :=
  { State.reset with
    transport := s.transport, callback := s.callback, host := s.host, schedule := s.schedule }

/-- The record `UartFinalize` builds from the captured characters (R104). -/
def uartRecord (buf : Vector Byte 12) : TagRecord :=
  { mfr := BitVec.ofNat 16 (mfrField buf).1
    id := BitVec.ofNat 24 (idField buf).1
    cks := BitVec.ofNat 8 (cksField buf).1
    valid := uartValid buf
    raw := buf }

/-- `WiegandRecord` (R135, R136, R137). A length that is neither 26 nor 35 leaves `ZeroRecord`, as in R137's text; a
configured block has none (log 17). -/
def wiegandRecord (len : BitVec 7) (wbuf : Vector Bool 100) : TagRecord :=
  if len = Config.wgLong then
    { TagRecord.zero with
      mfr := (field wbuf 2 12).setWidth 16, id := (field wbuf 14 20).setWidth 24, valid := true }
  else if len = Config.wgShort then
    { TagRecord.zero with mfr := 0x0000, id := field wbuf 1 24, valid := parity26 wbuf }
  else TagRecord.zero

end Sys2Proof.Machine
end

