-- ==== Sys2Proof/Machine/Facade.lean ====
section
/-! DEFINITION. The TagReader facade: NOP (R160), illegal words (R161), POLL (R165), READID (R166), CONFIG (R168, R169)
and HEXDEC (R170). -/

namespace Sys2Proof.Machine

/-- NOP (R160). -/
def execNop (s : State) : Host.Outcome State Fault Refusal := .next (s.respond .ok 0x00)

/-- An illegal event word on the command port (R161). -/
def illegalWord (s : State) : Host.Outcome State Fault Refusal := .next (s.respond .illegal 0x00)

/-- The completion test of Wiegand mode (R134), with the mode test of R165. -/
def State.complete (s : State) : Bool := s.cfg.mode == .wiegand && s.wcount == s.cfg.len

/-- POLL (R165): in Wiegand mode a complete cycle is finalized (R137). -/
def execPoll (s : State) : Host.Outcome State Fault Refusal :=
  .next <|
    match s.gate none with
    | some st => s.respond st 0x00
    | none =>
      if s.complete then (s.finalize (wiegandRecord s.cfg.len s.wbuf)).respond .ok 0x01
      else s.respond .ok (bitData s.available)

/-- The active decoder's own cycle reset (R166, R211). -/
def State.clearCycle (s : State) : State :=
  match s.cfg.mode with
  | .uart => s.clearUart
  | .wiegand => s.clearBits

/-- READID (R166): `RO` takes `TR`, then `TR`, `available` and the active decoder's cycle are reset. -/
def execReadid (s : State) : Host.Outcome State Fault Refusal :=
  .next <|
    match s.gate none with
    | some st => s.respond st 0x00
    | none => s.takeRecord.clearCycle.respond .ok (bitData s.available)

/-- CONFIG (R168), with the length validation of R169. -/
def execConfig (mode : Mode) (len : BitVec 7) (s : State) : Host.Outcome State Fault Refusal :=
  .next <|
    match mode with
    | .uart => (s.configure { configured := true, mode := .uart, len := 0 }).respond .ok 0x00
    | .wiegand =>
      if len = Config.wgShort ∨ len = Config.wgLong then
        (s.configure { configured := true, mode := .wiegand, len := len }).respond .ok 0x00
      else (s.configure { configured := false, mode := .uart, len := 0 }).respond .cfgError 0x00

/-- HEXDEC (R170). -/
def execHexdec (c : Byte) (s : State) : Host.Outcome State Fault Refusal :=
  .next <|
    if (hexNibble c).2 then s.respond .ok ((hexNibble c).1.setWidth 8)
    else s.respond .hexInvalid 0x00

end Sys2Proof.Machine
end

