-- ==== Sys2Proof/Machine/Uart.lean ====
section
/-! DEFINITION. The UART family: UART_BYTE (R100 to R107). -/

namespace Sys2Proof.Machine

/-- Whether the byte finalizes a frame, the source's `feed` result (R100, R102). -/
def finalizesFrame (b : Byte) (s : State) : Bool :=
  b == Config.endMarker && s.ustate == .reading && s.ucount.toNat == Config.payloadLen

/-- What an accepted byte does to the detector: start marker (R101), byte in IDLE (R105), end marker (R102), payload byte
(R103). -/
def State.acceptByte (b : Byte) (s : State) : State :=
  if b = Config.startMarker then s.startFrame
  else if s.ustate = .idle then s
  else if b = Config.endMarker then
    if s.ucount.toNat = Config.payloadLen then s.clearUart.finalize (uartRecord s.ubuf)
    else s.clearUart
  else if s.ucount.toNat < Config.payloadLen then s.pushByte b
  else s.clearUart

/-- UART_BYTE `b` (R100): turned away (NOT_CONFIGURED, MODE_MISMATCH), held (BUSY, R106), or accepted. -/
def execUartByte (b : Byte) (s : State) : Host.Outcome State Fault Refusal :=
  .next <|
    match s.gate (some .uart) with
    | some st => s.respond st 0x00
    | none =>
      if s.available then s.respond .busy 0x00
      else (s.acceptByte b).respond .ok (bitData (finalizesFrame b s))

end Sys2Proof.Machine
end

