-- ==== Sys2Proof/Machine/Wiegand.lean ====
section
/-! DEFINITION. The Wiegand family: WBIT0 and WBIT1 (R130 to R133). What POLL does in Wiegand mode is in Facade. -/

namespace Sys2Proof.Machine

/-- `WBIT(v)` (R132): record the bit, or drop it when the buffer is full. -/
def State.wbit (v : Bool) (s : State) : State :=
  match s.gate (some .wiegand) with
  | some st => s.respond st 0x00
  | none =>
    (if s.wcount.toNat < Config.wgCapacity then s.pushBit v else s).respond .ok 0x00

/-- WBIT0 (R130). -/
def execWbit0 (s : State) : Host.Outcome State Fault Refusal := .next (s.wbit false)

/-- WBIT1 (R131). -/
def execWbit1 (s : State) : Host.Outcome State Fault Refusal := .next (s.wbit true)

end Sys2Proof.Machine
end

