-- ==== Sys2Proof/Machine/Dispatch.lean ====
section
/-! DEFINITION. The meaning of each event, as the command port delivers it (log 3): one arm for each constructor of Instr. -/

namespace Sys2Proof.Machine

def exec (i : Instr) (s : State) : Host.Outcome State Fault Refusal :=
  match i with
  | .nop => Sys2Proof.Machine.execNop s
  | .uartByte b => Sys2Proof.Machine.execUartByte b s
  | .wbit0 => Sys2Proof.Machine.execWbit0 s
  | .wbit1 => Sys2Proof.Machine.execWbit1 s
  | .poll => Sys2Proof.Machine.execPoll s
  | .readid => Sys2Proof.Machine.execReadid s
  | .config mode len => Sys2Proof.Machine.execConfig mode len s
  | .hexdec c => Sys2Proof.Machine.execHexdec c s

end Sys2Proof.Machine
end

