-- ==== Sys2Proof/Machine/Ports.lean ====
section
/-! DEFINITION. The ports of R77: what the agents put on the input ports in the coming clock cycle, what leaves their
queues at its edge, and the output ports. -/

namespace Sys2Proof.Machine

/-- The input ports in one clock cycle (R77). `rx` is `rx_byte` when `rx_valid = 1`, `cmd` is `cmd_word` when
`cmd_valid = 1`. -/
structure Pins where
  rst : Bool
  d0 : Bool
  d1 : Bool
  rx : Option Byte
  cmd : Option EventWord
deriving DecidableEq, Repr

/-- A cycle in which nothing is presented. -/
def Pins.idle : Pins := { rst := false, d0 := false, d1 := false, rx := none, cmd := none }

/-- The coming cycle: the schedule's next, or an idle one when it holds none (log 5). -/
def State.cycle (s : State) : Cycle :=
  s.schedule.head?.getD { rst := false, callback := false, transport := false, host := false }

/-- What is on `d0_evt`. -/
def Pulse.onD0 : Pulse → Bool
  | .zero => true
  | .one => false
  | .both => true

/-- What is on `d1_evt`. -/
def Pulse.onD1 : Pulse → Bool
  | .zero => false
  | .one => true
  | .both => true

/-- The input ports of the coming cycle: each agent the cycle names presents the head of its queue, if there is one. -/
def State.pins (s : State) : Pins where
  rst := s.cycle.rst
  d0 := s.cycle.callback && (s.callback.head?.map Pulse.onD0).getD false
  d1 := s.cycle.callback && (s.callback.head?.map Pulse.onD1).getD false
  rx := if s.cycle.transport then s.transport.head? else none
  cmd := if s.cycle.host then s.host.head? else none

/-- The queues after the coming edge. A pulse and a command leave their queue whatever the block does with them (they are
lost in a reset cycle, R210); a byte leaves the transport only when `rx_ready = 1` (R78, R106; log 14). -/
def State.advance (s : State) : State :=
  { s with
    transport := if s.cycle.transport && s.rxReady s.cycle.rst then s.transport.tail else s.transport
    callback := if s.cycle.callback then s.callback.tail else s.callback
    host := if s.cycle.host then s.host.tail else s.host
    schedule := s.schedule.tail }

/-- Put a word at the head of the host's queue and schedule a cycle in which the host alone presents something. -/
def State.presentCommand (w : EventWord) (s : State) : State :=
  { s with
    host := w :: s.host
    schedule := { rst := false, callback := false, transport := false, host := true } :: s.schedule }

/-- `rec_raw`: `rec_raw[8i+7:8i] = RO.raw[i]` (R77, D27). -/
def packRaw (raw : Vector Byte 12) : BitVec 96 :=
  BitVec.ofNat 96 (raw.toList.foldr (fun b acc => b.toNat + 256 * acc) 0)

/-- The output ports (R77). `rx_ready` is combinational from the registers and `rst` (R78). -/
structure Outputs where
  rxReady : Bool
  respValid : Bool
  respStatus : BitVec 3
  respData : Byte
  avail : Bool
  recMfr : BitVec 16
  recId : BitVec 24
  recCks : Byte
  recValid : Bool
  recRaw : BitVec 96
  cfgConfigured : Bool
  cfgMode : BitVec 1
  cfgLen : BitVec 7
deriving DecidableEq, Repr

/-- The output ports in a state, with `rst` as given (R77). -/
def State.outputs (rst : Bool) (s : State) : Outputs where
  rxReady := s.rxReady rst
  respValid := s.respValid
  respStatus := s.respStatus.code
  respData := s.respData
  avail := s.available
  recMfr := s.ro.mfr
  recId := s.ro.id
  recCks := s.ro.cks
  recValid := s.ro.valid
  recRaw := packRaw s.ro.raw
  cfgConfigured := s.cfg.configured
  cfgMode := encodeMode s.cfg.mode
  cfgLen := s.cfg.len

end Sys2Proof.Machine
end

