-- ==== Sys2Proof/Machine/Cycle.lean ====
section
/-! DEFINITION. One clock cycle: each port's event delivered as a whole, in the order of R53, or a reset (R210). -/

namespace Sys2Proof.Machine

/-- An event delivered on a port. Only the command port's response reaches the response registers (R76). -/
def deliver (p : Port) (i : Instr) (s : State) : Host.Outcome State Fault Refusal :=
  match p with
  | .cmd => exec i s
  | _ => andThen (exec i s) fun t => .next (State.keepResponse s t)

/-- A word on the command port: the decoded event, or ILLEGAL (R75, R78, R161). -/
def runWord (w : EventWord) (s : State) : Host.Outcome State Fault Refusal :=
  match decode w with
  | some i => exec i s
  | none => illegalWord s

/-- An event when its port presents it, else nothing. -/
def deliverWhen (on : Bool) (p : Port) (i : Instr) (s : State) : Host.Outcome State Fault Refusal :=
  if on then deliver p i s else .next s

/-- The byte on `rx` when `ready`, else nothing (R78). -/
def deliverRx (ready : Bool) (rx : Option Byte) (s : State) : Host.Outcome State Fault Refusal :=
  match rx with
  | some b => deliverWhen ready .rx (.uartByte b) s
  | none => .next s

/-- The word on the command port, if one is presented. -/
def deliverCmd (cmd : Option EventWord) (s : State) : Host.Outcome State Fault Refusal :=
  match cmd with
  | some w => runWord w s
  | none => .next s

/-- A rising edge with the given input ports (R53, R78, R193, R210): a reset, or the events of `d0_evt`, `d1_evt`, `rx` and
the command port in that order. `rx_ready` is that of the state at the start of the cycle (R78). -/
def clockEdge (p : Pins) (s : State) : Host.Outcome State Fault Refusal :=
  if p.rst then .next s.blockReset
  else
    andThen (deliverWhen p.d0 .d0 .wbit0 s.dropResponse) fun s1 =>
    andThen (deliverWhen p.d1 .d1 .wbit1 s1) fun s2 =>
    andThen (deliverRx (s.rxReady false) p.rx s2) fun s3 =>
    deliverCmd p.cmd s3

/-- The next clock cycle: the agents' presentations leave their queues and the edge happens. -/
def clockCycle (s : State) : Host.Outcome State Fault Refusal := clockEdge s.pins s.advance

/-- A sequence of events, one after another: the single total order of R54 and R60. -/
def deliverAll : List Event → State → Host.Outcome State Fault Refusal
  | [], s => .next s
  | e :: es, s => andThen (deliver e.port e.instr s) (deliverAll es)

end Sys2Proof.Machine
end

