-- ==== Sys2Proof/Machine/Step.lean ====
section
/-! DEFINITION. One step of the machine is one clock cycle (log 1), and the placing of a word so that the next step runs it
(log 2). -/

namespace Sys2Proof.Machine

/-- One step: the next clock cycle (R54, R217; log 13). -/
def step (s : State) : Host.Outcome State Fault Refusal := clockCycle s

/-- The state with a table word on the command port in the coming cycle, alone. The block fetches nothing (R62): a word
reaches it when the host presents it (log 2). -/
def State.withFetchWord (s : State) (nbits w : Nat) : State := s.presentCommand (tableWord nbits w)

end Sys2Proof.Machine
end

