-- ==== Sys2Proof/Machine/Instances.lean ====
section
/-! DEFINITION. Several blocks on one platform (R11, R199): each has its own copy of every piece of state (log 19). -/

namespace Sys2Proof.Machine

/-- A step of block number `k` of a platform. The other blocks are not read and not written (R199). -/
def stepBlock (k : Nat) (blocks : List State) : List State :=
  match blocks[k]? with
  | none => blocks
  | some s =>
    match step s with
    | .next t => blocks.set k t
    | .fault _ => blocks
    | .refused _ => blocks

end Sys2Proof.Machine
end

