-- ==== Sys2Proof/Machine/Trace.lean ====
section
/-! DEFINITION. The pseudo-events of the trace notation (R87), and the writing of a record as a UART payload and of a bit
string as a number that the source's properties (95_test_vectors.md, W4 to W7) speak of. -/

namespace Sys2Proof.Machine

/-- An event on its default port (R87): UART_BYTE on `rx`, WBIT0 on `d0_evt`, WBIT1 on `d1_evt`, the rest on the command
port. -/
def onDefaultPort (i : Instr) : Event :=
  match i with
  | .uartByte b => { port := .rx, instr := .uartByte b }
  | .wbit0 => { port := .d0, instr := .wbit0 }
  | .wbit1 => { port := .d1, instr := .wbit1 }
  | .nop => { port := .cmd, instr := .nop }
  | .poll => { port := .cmd, instr := .poll }
  | .readid => { port := .cmd, instr := .readid }
  | .config m l => { port := .cmd, instr := .config m l }
  | .hexdec c => { port := .cmd, instr := .hexdec c }

/-- UART_BYTE of each byte, in order. -/
def bytesOf (cs : List Byte) : List Event := cs.map fun c => onDefaultPort (.uartByte c)

/-- `FRAME "<s>"` (R87): the start marker, the characters, the end marker. -/
def frame (cs : List Byte) : List Event := bytesOf ([Config.startMarker] ++ cs ++ [Config.endMarker])

/-- `WBITS "<bits>"` (R87): WBIT0 for each 0 and WBIT1 for each 1; the leftmost bit is arrival index 0. -/
def wbits (bits : List Bool) : List Event :=
  bits.map fun v => onDefaultPort (if v then .wbit1 else .wbit0)

/-- The characters of a string, by their codes (R80). -/
def ascii (str : String) : List Byte := str.toList.map fun c => BitVec.ofNat 8 c.toNat

/-- The upper-case hex digit of a nibble (R80). -/
def hexChar (v : BitVec 4) : Byte :=
  if v < 10 then 0x30 + v.setWidth 8 else 0x41 + (v.setWidth 8 - 10)

/-- The two hex digits of a byte, most significant first (R56). -/
def hexPair (b : Byte) : List Byte := [hexChar (b.extractLsb' 4 4), hexChar (b.extractLsb' 0 4)]

/-- The five bytes under the checksum: the manufacturer code's two, then the id's three (R83). -/
def recordBytes (mfr : BitVec 16) (id : BitVec 24) : List Byte :=
  [mfr.extractLsb' 8 8, mfr.extractLsb' 0 8, id.extractLsb' 16 8, id.extractLsb' 8 8, id.extractLsb' 0 8]

/-- The exclusive-OR of some bytes. -/
def xorBytes (bs : List Byte) : Byte := bs.foldl (fun x b => x ^^^ b) 0x00

/-- The 12 payload characters that carry a manufacturer code, an id and a declared checksum (R79). -/
def payloadChars (mfr : BitVec 16) (id : BitVec 24) (cks : Byte) : List Byte :=
  (recordBytes mfr id ++ [cks]).flatMap hexPair

/-- A bit string read as a number, leftmost bit most significant. -/
def bitsValue (bits : List Bool) : Nat := bits.foldl (fun v b => 2 * v + b.toNat) 0

/-- The exclusive-OR of some bits. -/
def xorBits (bits : List Bool) : Bool := bits.foldl xor false

end Sys2Proof.Machine
end

