-- ==== Sys2Proof/Safety.lean ====
section
/-! DEFINITION. What holds of the block in every run: the invariants of R31, and the named situations of R133, R203 that
claims speak of. -/

namespace Sys2Proof.Machine

/-- The legal combinations of `CFG` (R22). -/
def Cfg.legal (c : Cfg) : Bool :=
  (!(c.configured && c.mode == .wiegand) || c.len == 26 || c.len == 35) &&
    (!(c.mode == .uart) || c.len == 0)

/-- The record the active decoder's finalization gives: in UART mode from the characters kept in `TR.raw` (R104), in
Wiegand mode from the bits (R137). -/
def State.justified (s : State) : TagRecord :=
  match s.cfg.mode with
  | .uart => uartRecord s.tr.raw
  | .wiegand => wiegandRecord s.cfg.len s.wbuf

/-- The invariants (I1) to (I7) of R31, and one more (log 15). -/
structure State.Inv (s : State) : Prop where
  /-- (I1) for the payload counter. -/
  ucount_le : s.ucount.toNat ≤ 12
  /-- (I1) for the bit counter. -/
  wcount_le : s.wcount.toNat ≤ 100
  /-- (I2). -/
  idle_clear : s.ustate = .idle → s.ucount = 0 ∧ s.ubuf = zeroBytes
  /-- (I3). -/
  unavailable_zero : s.available = false → s.tr = TagRecord.zero
  /-- (I4), as a property of one state: an available record, its `valid` flag included, is what the finalization rule
  gives, and in Wiegand mode the bits it was read from have all arrived. -/
  available_justified : s.available = true →
    s.tr = s.justified ∧ (s.cfg.mode = .wiegand → s.cfg.len.toNat ≤ s.wcount.toNat)
  /-- (I5). -/
  cfg_legal : s.cfg.legal = true
  /-- (I6). -/
  wiegand_record : s.cfg.mode = .wiegand → s.tr.raw = zeroBytes ∧ s.tr.cks = 0
  /-- (I7). -/
  uart_bits_clear : s.cfg.mode = .uart → s.wcount = 0 ∧ s.wbuf = zeroBits
  /-- The counterpart of (I7) that 95_test_vectors.md W9 and P2 rest on: in Wiegand mode the UART detector is idle
  (log 15). -/
  wiegand_uart_idle : s.cfg.mode = .wiegand → s.ustate = .idle

/-- The buffers hold nothing past their counters (R101, R103, R130, R132). -/
structure State.TailsClear (s : State) : Prop where
  ubuf_tail : ∀ j (h : j < 12), s.ucount.toNat ≤ j → s.ubuf[j] = 0x00
  wbuf_tail : ∀ j (h : j < 100), s.wcount.toNat ≤ j → s.wbuf[j] = false

/-- The held situation of R203 (a): UART mode with a record available. -/
def State.Held (s : State) : Prop :=
  s.cfg.configured = true ∧ s.cfg.mode = .uart ∧ s.available = true

/-- The starved situation of R133 and R203 (b): Wiegand mode, more bits than the length, no record. -/
def State.Starved (s : State) : Prop :=
  s.cfg.configured = true ∧ s.cfg.mode = .wiegand ∧ s.available = false ∧
    s.cfg.len.toNat < s.wcount.toNat

/-- An event that ends a cycle or reconfigures: READID or CONFIG. -/
def endsCycle : Instr → Bool
  | .readid => true
  | .config _ _ => true
  | .nop => false
  | .uartByte _ => false
  | .wbit0 => false
  | .wbit1 => false
  | .poll => false
  | .hexdec _ => false

/-- The events that need a configured block (R76's row NOT_CONFIGURED). -/
def needsConfig : Instr → Bool
  | .uartByte _ => true
  | .wbit0 => true
  | .wbit1 => true
  | .poll => true
  | .readid => true
  | .nop => false
  | .config _ _ => false
  | .hexdec _ => false

/-- The decoder an event belongs to (R76's row MODE_MISMATCH), if it belongs to one. -/
def ownerMode : Instr → Option Mode
  | .uartByte _ => some .uart
  | .wbit0 => some .wiegand
  | .wbit1 => some .wiegand
  | .poll => none
  | .readid => none
  | .nop => none
  | .config _ _ => none
  | .hexdec _ => none

/-- Whether the coming clock cycle ends a cycle of the block: a reset, or a READID or CONFIG on the command port. -/
def State.cycleEnds (s : State) : Bool :=
  s.pins.rst || ((s.pins.cmd.bind decode).map endsCycle).getD false

end Sys2Proof.Machine
end

