-- ==== Sys2Proof/Certificates/Slice0/Obligations.lean ====
section
/-! DEFINITION. The statements for the provers. -/

open Sys2Proof Sys2Proof.Machine

/-! ### Encoding -/

/-- R73, R75: decoding the word of an event gives the event back, for every event and every operand value. -/
def Obligations.DecodeEncode : Prop :=
  ∀ i : Instr, i.wellFormed = true → decode (encode i) = some i

/-- R75: every word that decodes is the word of the event it decodes to, so no two words mean one event. -/
def Obligations.EncodeDecode : Prop :=
  ∀ (w : EventWord) (i : Instr), decode w = some i → encode i = w

/-- R74: the decoder refuses exactly the words with `op` in 0x8..0xF and the words with `op` in
{0x0, 0x2, 0x3, 0x4, 0x5} and a nonzero argument. -/
def Obligations.DecodeRefusesExactlyIllegalWords : Prop :=
  ∀ w : EventWord, decode w = none ↔
    (0x800 ≤ w.toNat ∨
      ((w.toNat / 256 = 0 ∨ w.toNat / 256 = 2 ∨ w.toNat / 256 = 3 ∨ w.toNat / 256 = 4 ∨
        w.toNat / 256 = 5) ∧ w.toNat % 256 ≠ 0))

/-- R72, R87: words written out from the opcode map, one for each event. -/
def Obligations.SampleWordsDecode : Prop :=
  decode 0b000000000000 = some .nop ∧
  decode 0b000101000110 = some (.uartByte 0x46) ∧
  decode 0b001000000000 = some .wbit0 ∧
  decode 0b001100000000 = some .wbit1 ∧
  decode 0b010000000000 = some .poll ∧
  decode 0b010100000000 = some .readid ∧
  decode 0b011010011010 = some (.config .wiegand 26) ∧
  decode 0b011001111111 = some (.config .uart 127) ∧
  decode 0b011101100001 = some (.hexdec 0x61)

/-! ### Reset and the step -/

/-- R35, R210: every register of the block has the value of R35's table at reset. -/
def Obligations.ResetValues : Prop :=
  State.reset.cfg = { configured := false, mode := .uart, len := 0 } ∧
  State.reset.ustate = .idle ∧ State.reset.ucount = 0 ∧
  (∀ j (h : j < 12), State.reset.ubuf[j] = 0x00) ∧
  State.reset.wcount = 0 ∧ (∀ j (h : j < 100), State.reset.wbuf[j] = false) ∧
  State.reset.available = false ∧
  (State.reset.tr.mfr = 0 ∧ State.reset.tr.id = 0 ∧ State.reset.tr.cks = 0 ∧
    State.reset.tr.valid = false ∧ ∀ j (h : j < 12), State.reset.tr.raw[j] = 0x00) ∧
  State.reset.ro = State.reset.tr ∧
  State.reset.respValid = false ∧ State.reset.respStatus.code = 0 ∧ State.reset.respData = 0

/-- R78: a cycle in which one agent alone presents something runs exactly the event it presents, on the state whose queues
have moved on and whose `resp_valid` is down. The host's word runs the event it decodes to. The transport's byte runs
UART_BYTE when `rx_ready = 1`, and stays with the transport when `rx_ready = 0`. A pulse on `d0_evt` runs WBIT0, one on
`d1_evt` WBIT1, and both in one cycle WBIT0 and then WBIT1 (R53). Only the host's event leaves a response (R76; what the other
response registers keep is log 4, the queues and the schedule are log 1). -/
def Obligations.StepRunsPresentedEvent : Prop :=
  ∀ (s : State) (cs : List Cycle),
    (∀ w ws i, s.schedule = { rst := false, callback := false, transport := false, host := true } :: cs →
      s.host = w :: ws → decode w = some i → i.wellFormed = true →
      step s = exec i { s with schedule := cs, host := ws, respValid := false }) ∧
    (∀ b bs, s.schedule = { rst := false, callback := false, transport := true, host := false } :: cs →
      s.transport = b :: bs →
      (s.rxReady false = true →
        ∃ t, exec (.uartByte b) { s with schedule := cs, transport := bs, respValid := false } = .next t ∧
          step s = .next { t with
            respValid := false, respStatus := s.respStatus, respData := s.respData }) ∧
      (s.rxReady false = false → step s = .next { s with schedule := cs, respValid := false })) ∧
    (∀ ps, s.schedule = { rst := false, callback := true, transport := false, host := false } :: cs →
      (s.callback = .zero :: ps →
        ∃ t, exec .wbit0 { s with schedule := cs, callback := ps, respValid := false } = .next t ∧
          step s = .next { t with
            respValid := false, respStatus := s.respStatus, respData := s.respData }) ∧
      (s.callback = .one :: ps →
        ∃ t, exec .wbit1 { s with schedule := cs, callback := ps, respValid := false } = .next t ∧
          step s = .next { t with
            respValid := false, respStatus := s.respStatus, respData := s.respData }) ∧
      (s.callback = .both :: ps →
        ∃ t u, exec .wbit0 { s with schedule := cs, callback := ps, respValid := false } = .next t ∧
          exec .wbit1 t = .next u ∧
          step s = .next { u with
            respValid := false, respStatus := s.respStatus, respData := s.respData }))

/-- The model's own (log 2, log 10): a placed table word is what the next step runs, or what it answers ILLEGAL to. -/
def Obligations.PlacedWordRunsNext : Prop :=
  ∀ (s : State) (nbits w : Nat),
    step (s.withFetchWord nbits w) =
      match decodeTableWord nbits w with
      | some i => exec i { s with respValid := false }
      | none => .next { s with respValid := true, respStatus := .illegal, respData := 0x00 }

/-- R161: at a clock edge whose only event is an illegal word on the command port, the word is answered (ILLEGAL, 0x00)
and nothing else changes, whatever the state. -/
def Obligations.IllegalWordAnswered : Prop :=
  ∀ (s : State) (w : EventWord),
    (0x8 ≤ w.op ∨ (w.op ∈ [0x0, 0x2, 0x3, 0x4, 0x5] ∧ w.arg ≠ 0x00)) →
    clockEdge { Pins.idle with cmd := some w } s = .next { s with
      respValid := true, respStatus := .illegal, respData := 0x00 }

/-- R203, R194: the block has no fault state; every clock cycle of every state ends in a next state. -/
def Obligations.StepAnswersNext : Prop := ∀ s : State, ∃ t, step s = .next t

/-- R210: a rising edge with `rst = 1` takes every register to its reset value and performs no event. A pulse or a command
presented in the cycle is lost; a byte is not accepted and stays with the transport. -/
def Obligations.RstEdgeResetsBlock : Prop :=
  ∀ (s : State) (c : Cycle) (cs : List Cycle),
    s.schedule = c :: cs → c.rst = true →
    s.rxReady true = false ∧
    step s = .next { State.reset with
      transport := s.transport
      callback := if c.callback then s.callback.tail else s.callback
      host := if c.host then s.host.tail else s.host
      schedule := cs }

/-- R76: `resp_valid` is 1 after a cycle with a command-port event and 0 after every other cycle. -/
def Obligations.ResponseValidExactlyAfterCommand : Prop :=
  ∀ s t : State, step s = .next t → t.respValid = (s.pins.cmd.isSome && !s.pins.rst)

/-- R53, R193: the events of one cycle are applied one after another, each whole, in the order `d0_evt`, `d1_evt`, `rx`,
command: the cycle is the same as four cycles that present one port each. -/
def Obligations.SameCycleEventsInPortOrder : Prop :=
  ∀ (p : Pins) (s : State), p.rst = false →
    clockEdge p s =
      andThen (clockEdge { Pins.idle with d0 := p.d0 } s) fun s1 =>
      andThen (clockEdge { Pins.idle with d1 := p.d1 } s1) fun s2 =>
      andThen (clockEdge { Pins.idle with rx := p.rx } s2) fun s3 =>
      clockEdge { Pins.idle with cmd := p.cmd } s3

/-- R78: `rx_ready` is 0 in exactly two cases. A byte presented while it is 0 changes nothing in the block and stays with
the transport; a byte presented while it is 1 leaves the transport. -/
def Obligations.RxReadyDecidesAcceptance : Prop :=
  (∀ (s : State) (rst : Bool), s.rxReady rst = false ↔
    (rst = true ∨ (s.cfg.configured = true ∧ s.cfg.mode = .uart ∧ s.available = true))) ∧
  (∀ (p : Pins) (s : State), s.rxReady p.rst = false →
    clockEdge p s = clockEdge { p with rx := none } s) ∧
  (∀ (s t : State) (b : Byte) (bs : List Byte),
    s.transport = b :: bs → s.pins.rx = some b → step s = .next t →
    t.transport = if s.rxReady s.pins.rst then bs else b :: bs)

/-- R77: each output port shows its register, and `rec_raw[8i+7:8i]` is `RO.raw[i]`. -/
def Obligations.OutputPortsShowRegisters : Prop :=
  ∀ (s : State) (rst : Bool),
    (s.outputs rst).avail = s.available ∧
    (s.outputs rst).respValid = s.respValid ∧ (s.outputs rst).respStatus = s.respStatus.code ∧
    (s.outputs rst).respData = s.respData ∧
    (s.outputs rst).recMfr = s.ro.mfr ∧ (s.outputs rst).recId = s.ro.id ∧
    (s.outputs rst).recCks = s.ro.cks ∧ (s.outputs rst).recValid = s.ro.valid ∧
    (∀ i (h : i < 12), (s.outputs rst).recRaw.extractLsb' (8 * i) 8 = s.ro.raw[i]) ∧
    (s.outputs rst).cfgConfigured = s.cfg.configured ∧
    ((s.outputs rst).cfgMode = 1 ↔ s.cfg.mode = .wiegand) ∧ (s.outputs rst).cfgLen = s.cfg.len

/-- R31: the invariants hold at reset. -/
def Obligations.ResetMeetsInvariants : Prop := State.reset.Inv

/-- R31: every clock cycle, whatever it presents, keeps the invariants (I1) to (I7). -/
def Obligations.StepKeepsInvariants : Prop :=
  ∀ s t : State, s.Inv → step s = .next t → t.Inv

/-- R101, R103, R130, R132: neither buffer ever holds anything past its counter. -/
def Obligations.StepKeepsBufferTailsClear : Prop :=
  ∀ s t : State, s.TailsClear → step s = .next t → t.TailsClear

/-- R31 (I4), R104: in UART mode a record with `valid` set keeps, in `TR.raw`, twelve hex digits whose checksum agrees. -/
def Obligations.ValidUartRecordIsCheckedHex : Prop :=
  ∀ s : State, s.Inv → s.cfg.mode = .uart → s.tr.valid = true →
    (∀ j (h : j < 12), (hexNibble s.tr.raw[j]).2 = true) ∧ uartChecksum s.tr.raw = s.tr.cks

/-- R199: a step of block `k` of a platform takes it to the next state of its own step, whatever the other blocks hold, and
every other block keeps its state. That a platform is a list of blocks is log 19. -/
def Obligations.BlocksShareNothing : Prop :=
  ∀ (blocks : List State) (k : Nat) (s : State), blocks[k]? = some s →
    ∃ t, step s = .next t ∧ (stepBlock k blocks)[k]? = some t ∧
      (stepBlock k blocks).length = blocks.length ∧
      ∀ j, j ≠ k → (stepBlock k blocks)[j]? = blocks[j]?

/-! ### Statuses and whole-machine rules -/

/-- R160: NOP is the word 0x000, any other word with `op` 0x0 is illegal, and NOP responds (OK, 0x00) and changes nothing
else, configured or not. -/
def Obligations.NopOnlyResponds : Prop :=
  decode 0x000 = some .nop ∧ (∀ arg : Byte, arg ≠ 0x00 → decode (0x0#4 ++ arg) = none) ∧
  ∀ s : State,
    exec .nop s = .next { s with respValid := true, respStatus := .ok, respData := 0x00 }

/-- D18, R76: the five events that need a configured block are answered NOT_CONFIGURED by one that is not, and change
nothing else. -/
def Obligations.UnconfiguredTurnsEventsAway : Prop :=
  ∀ (s : State) (i : Instr), s.cfg.configured = false → needsConfig i = true →
    exec i s = .next { s with
      respValid := true, respStatus := .notConfigured, respData := 0x00 }

/-- R171: an event of the inactive decoder is answered MODE_MISMATCH and changes nothing else; an event other than CONFIG
leaves the inactive decoder's registers alone. -/
def Obligations.OnlyActiveDecoderChanges : Prop :=
  (∀ (s : State) (i : Instr) (m : Mode), s.cfg.configured = true → ownerMode i = some m →
    s.cfg.mode ≠ m →
    exec i s = .next { s with
      respValid := true, respStatus := .modeMismatch, respData := 0x00 }) ∧
  (∀ (s t : State) (i : Instr), (∀ m l, i ≠ .config m l) → exec i s = .next t →
    (s.cfg.mode = .uart → t.wcount = s.wcount ∧ t.wbuf = s.wbuf) ∧
    (s.cfg.mode = .wiegand → t.ustate = s.ustate ∧ t.ucount = s.ucount ∧ t.ubuf = s.ubuf))

/-- R192: the status reported is the first that applies: ILLEGAL, NOT_CONFIGURED, MODE_MISMATCH, BUSY, OK. CONFIG and
HEXDEC never report one of the middle three. -/
def Obligations.StatusPriority : Prop :=
  ∀ (w : EventWord) (s t : State), runWord w s = .next t →
    (w.legal = false → t.respStatus = .illegal) ∧
    (∀ i, decode w = some i → (∀ m l, i ≠ .config m l) → (∀ c, i ≠ .hexdec c) →
      t.respStatus =
        if needsConfig i = true ∧ s.cfg.configured = false then .notConfigured
        else if ownerMode i ≠ none ∧ ownerMode i ≠ some s.cfg.mode then .modeMismatch
        else if ownerMode i = some .uart ∧ s.available = true then .busy
        else .ok) ∧
    (∀ m l, decode w = some (.config m l) → t.respStatus = .ok ∨ t.respStatus = .cfgError) ∧
    (∀ c, decode w = some (.hexdec c) → t.respStatus = .ok ∨ t.respStatus = .hexInvalid)

/-- R191: a word answered with a status other than OK changes nothing but the response, except that CFG_ERROR resets the
block. -/
def Obligations.NonOkChangesNoState : Prop :=
  ∀ (w : EventWord) (s t : State), runWord w s = .next t → t.respStatus ≠ .ok →
    (t.respStatus ≠ .cfgError →
      t = { s with respValid := true, respStatus := t.respStatus, respData := 0x00 }) ∧
    (t.respStatus = .cfgError →
      t = { State.reset with
        respValid := true, respStatus := .cfgError, respData := 0x00
        transport := s.transport, callback := s.callback, host := s.host
        schedule := s.schedule })

/-- R35: each register is written only by the events its row names. -/
def Obligations.RegistersWrittenOnlyByNamedEvents : Prop :=
  ∀ (i : Instr) (s t : State), exec i s = .next t → (∀ m l, i ≠ .config m l) →
    t.cfg = s.cfg ∧
    ((∀ b, i ≠ .uartByte b) → i ≠ .readid →
      t.ustate = s.ustate ∧ t.ucount = s.ucount ∧ t.ubuf = s.ubuf) ∧
    (i ≠ .wbit0 → i ≠ .wbit1 → i ≠ .readid → t.wcount = s.wcount ∧ t.wbuf = s.wbuf) ∧
    ((∀ b, i ≠ .uartByte b) → i ≠ .poll → i ≠ .readid →
      t.tr = s.tr ∧ t.available = s.available) ∧
    (i ≠ .readid → t.ro = s.ro)

/-- R22: a clock cycle changes `CFG` only by a CONFIG on the command port or by reset. -/
def Obligations.CfgChangesOnlyByConfigOrReset : Prop :=
  ∀ s t : State, step s = .next t → t.cfg ≠ s.cfg →
    s.pins.rst = true ∨ ∃ w m l, s.pins.cmd = some w ∧ decode w = some (.config m l)

/-- R55: an event other than READID and CONFIG changes `wbuf` at most at index `wcount`, and only WBIT0 and WBIT1 do;
one that neither starts nor ends a frame changes `ubuf` at most at index `ucount`, and only UART_BYTE does. -/
def Obligations.BuffersWrittenOnlyAtCounters : Prop :=
  ∀ (i : Instr) (s t : State), exec i s = .next t → endsCycle i = false →
    (∀ j (h : j < 100), t.wbuf[j] ≠ s.wbuf[j] →
      j = s.wcount.toNat ∧ (i = .wbit0 ∨ i = .wbit1)) ∧
    (t.ucount ≠ 0 → ∀ j (h : j < 12), t.ubuf[j] ≠ s.ubuf[j] →
      j = s.ucount.toNat ∧ ∃ b, i = .uartByte b)

/-- R32: no event reads from or writes to what the agents still hold, and every event leaves a response. -/
def Obligations.EventsLeaveAgentQueues : Prop :=
  ∀ (i : Instr) (s t : State), exec i s = .next t →
    t.transport = s.transport ∧ t.callback = s.callback ∧ t.host = s.host ∧
    t.schedule = s.schedule ∧ t.respValid = true

/-! ### UART_BYTE -/

/-- R101: an accepted start marker clears `ubuf`, `ucount` and `TR` and enters READING, whatever `ustate` is. -/
def Obligations.StartMarkerStartsFrame : Prop :=
  ∀ s : State, s.cfg.configured = true → s.cfg.mode = .uart → s.available = false →
    exec (.uartByte 0x02) s = .next { s with
      ustate := .reading, ucount := 0, ubuf := Vector.replicate 12 0x00
      tr := { mfr := 0, id := 0, cks := 0, valid := false, raw := Vector.replicate 12 0x00 }
      respValid := true, respStatus := .ok, respData := 0x00 }

/-- R102: an end marker while READING finalizes a frame of exactly 12 characters and discards a shorter one; both return
to IDLE with the buffer cleared. In the short case `TR` is, and stays, ZeroRecord (I3). -/
def Obligations.EndMarkerClosesFrame : Prop :=
  ∀ s : State, s.cfg.configured = true → s.cfg.mode = .uart → s.available = false →
    s.ustate = .reading →
    (s.ucount.toNat = 12 →
      exec (.uartByte 0x03) s = .next { s with
        ustate := .idle, ucount := 0, ubuf := Vector.replicate 12 0x00
        tr := uartRecord s.ubuf, available := true
        respValid := true, respStatus := .ok, respData := 0x01 }) ∧
    (s.ucount.toNat < 12 → s.Inv →
      exec (.uartByte 0x03) s = .next { s with
        ustate := .idle, ucount := 0, ubuf := Vector.replicate 12 0x00
        tr := TagRecord.zero, available := false
        respValid := true, respStatus := .ok, respData := 0x00 })

/-- R104, R107: the finalized record, character by character: the fields, the exclusive-OR of the five pairs against the
declared checksum, and every character a hex digit. For a character that is no hex digit see log 9. -/
def Obligations.FinalizedRecordFromCharacters : Prop :=
  ∀ (s : State) (c0 c1 c2 c3 c4 c5 c6 c7 c8 c9 c10 c11 : Byte),
    s.cfg.configured = true → s.cfg.mode = .uart → s.available = false →
    s.ustate = .reading → s.ucount = 12 →
    s.ubuf = #v[c0, c1, c2, c3, c4, c5, c6, c7, c8, c9, c10, c11] →
    exec (.uartByte 0x03) s = .next { s with
      ustate := .idle, ucount := 0, ubuf := Vector.replicate 12 0x00
      tr := {
        mfr := BitVec.ofNat 16 (hexField [c0, c1, c2, c3]).1
        id := BitVec.ofNat 24 (hexField [c4, c5, c6, c7, c8, c9]).1
        cks := BitVec.ofNat 8 (hexField [c10, c11]).1
        valid :=
          (BitVec.ofNat 8 (hexField [c0, c1]).1 ^^^ BitVec.ofNat 8 (hexField [c2, c3]).1 ^^^
            BitVec.ofNat 8 (hexField [c4, c5]).1 ^^^ BitVec.ofNat 8 (hexField [c6, c7]).1 ^^^
            BitVec.ofNat 8 (hexField [c8, c9]).1 == BitVec.ofNat 8 (hexField [c10, c11]).1) &&
          (hexField [c0, c1, c2, c3]).2 && (hexField [c4, c5, c6, c7, c8, c9]).2 &&
          (hexField [c10, c11]).2
        raw := #v[c0, c1, c2, c3, c4, c5, c6, c7, c8, c9, c10, c11] }
      available := true
      respValid := true, respStatus := .ok, respData := 0x01 }

/-- R103: a byte that is neither marker is appended at `ucount` while fewer than 12 are captured; a 13th aborts the
frame. -/
def Obligations.PayloadByteAppendsOrAborts : Prop :=
  ∀ (s : State) (b : Byte), s.cfg.configured = true → s.cfg.mode = .uart →
    s.available = false → s.ustate = .reading → b ≠ 0x02 → b ≠ 0x03 →
    (∀ h : s.ucount.toNat < 12,
      exec (.uartByte b) s = .next { s with
        ubuf := s.ubuf.set s.ucount.toNat b h, ucount := BitVec.ofNat 4 (s.ucount.toNat + 1)
        respValid := true, respStatus := .ok, respData := 0x00 }) ∧
    (s.ucount.toNat = 12 →
      exec (.uartByte b) s = .next { s with
        ustate := .idle, ucount := 0, ubuf := Vector.replicate 12 0x00
        respValid := true, respStatus := .ok, respData := 0x00 })

/-- R105: in IDLE a byte other than 0x02 changes no state and responds (OK, 0x00). -/
def Obligations.IdleByteIgnored : Prop :=
  ∀ (s : State) (b : Byte), s.cfg.configured = true → s.cfg.mode = .uart →
    s.available = false → s.ustate = .idle → b ≠ 0x02 →
    exec (.uartByte b) s = .next { s with
      respValid := true, respStatus := .ok, respData := 0x00 }

/-- R106: while a record is available UART_BYTE changes no state and responds (BUSY, 0x00), and `rx_ready` is 0. -/
def Obligations.ByteHeldWhileAvailable : Prop :=
  ∀ (s : State) (b : Byte), s.cfg.configured = true → s.cfg.mode = .uart →
    s.available = true →
    exec (.uartByte b) s = .next { s with
      respValid := true, respStatus := .busy, respData := 0x00 } ∧
    s.rxReady false = false

/-- R81: the characters that are hex digits, with their values; every other character gives (0, 0). -/
def Obligations.HexNibbleTable : Prop :=
  (∀ k, k < 10 → hexNibble (BitVec.ofNat 8 (0x30 + k)) = (BitVec.ofNat 4 k, true)) ∧
  (∀ k, k < 6 → hexNibble (BitVec.ofNat 8 (0x41 + k)) = (BitVec.ofNat 4 (10 + k), true)) ∧
  (∀ k, k < 6 → hexNibble (BitVec.ofNat 8 (0x61 + k)) = (BitVec.ofNat 4 (10 + k), true)) ∧
  (∀ c : Byte, (c < 0x30 ∨ (0x39 < c ∧ c < 0x41) ∨ (0x46 < c ∧ c < 0x61) ∨ 0x66 < c) →
    hexNibble c = (0, false))

/-- R82: a hex field is a most-significant-first numeral, its flag says that every character is a hex digit, and `n`
characters never exceed `4 n` bits. -/
def Obligations.HexFieldIsNumeral : Prop :=
  hexField [] = (0, true) ∧
  (∀ (cs : List Byte) (c : Byte), hexField (cs ++ [c]) =
    (16 * (hexField cs).1 + (hexNibble c).1.toNat, (hexField cs).2 && (hexNibble c).2)) ∧
  (∀ cs : List Byte, (hexField cs).1 < 2 ^ (4 * cs.length))

/-- R107: the checksum does not depend on the order of the five pairs. -/
def Obligations.ChecksumIgnoresPairOrder : Prop :=
  ∀ a b : Vector Byte 12,
    ((List.range 5).map (pairField a)).Perm ((List.range 5).map (pairField b)) →
    uartChecksum a = uartChecksum b

/-- R104: a character that is not a hex digit forces `valid` to 0, even if the checksums agree. -/
def Obligations.NonHexCharacterNeverValid : Prop :=
  ∀ (buf : Vector Byte 12) (j : Nat) (h : j < 12),
    (hexNibble buf[j]).2 = false → (uartRecord buf).valid = false

/-- The source's checksum rejection (95_test_vectors.md W5): changing one checksum character of a valid payload to one that
decodes differently makes the record invalid. -/
def Obligations.ChangedChecksumDigitRejected : Prop :=
  ∀ (buf : Vector Byte 12) (k : Nat) (h : k < 12) (c : Byte),
    (uartRecord buf).valid = true → 10 ≤ k → hexNibble c ≠ hexNibble buf[k] →
    (uartRecord (buf.set k c h)).valid = false

/-- R79, R101 to R104: a start marker, any 12 characters that are no markers, and an end marker, delivered on `rx` to a
block that holds no record, leave the record of these characters available, whatever frame was in progress. -/
def Obligations.TwelveCharacterFrameFinalizes : Prop :=
  ∀ (s : State) (cs : Vector Byte 12), s.cfg.configured = true → s.cfg.mode = .uart →
    s.available = false → (∀ c ∈ cs.toList, c ≠ 0x02 ∧ c ≠ 0x03) →
    deliverAll (frame cs.toList) s = .next { s with
      ustate := .idle, ucount := 0, ubuf := Vector.replicate 12 0x00
      tr := uartRecord cs, available := true }

/-- R57: a frame whose payload is not exactly 12 characters is not decoded. -/
def Obligations.OtherLengthFrameNotDecoded : Prop :=
  ∀ (s : State) (cs : List Byte), s.cfg.configured = true → s.cfg.mode = .uart →
    s.available = false → (∀ c ∈ cs, c ≠ 0x02 ∧ c ≠ 0x03) → cs.length ≠ 12 →
    deliverAll (frame cs) s = .next { s with
      ustate := .idle, ucount := 0, ubuf := Vector.replicate 12 0x00, tr := TagRecord.zero }

/-- The source's UART round trip (95_test_vectors.md W4): any manufacturer code and id, written with their checksum as a
payload and framed, come back exactly, with `valid` set. -/
def Obligations.UartRoundTrip : Prop :=
  ∀ (s : State) (mfr : BitVec 16) (id : BitVec 24), s.cfg.configured = true →
    s.cfg.mode = .uart → s.available = false →
    ∃ t, deliverAll (frame (payloadChars mfr id (xorBytes (recordBytes mfr id)))) s = .next t ∧
      t.available = true ∧ t.tr.mfr = mfr ∧ t.tr.id = id ∧
      t.tr.cks = xorBytes (recordBytes mfr id) ∧ t.tr.valid = true ∧
      t.tr.raw.toList = payloadChars mfr id (xorBytes (recordBytes mfr id))

/-! ### WBIT0 and WBIT1 -/

/-- R132: WBIT(v) in its four cases: not configured, the other decoder's mode, room in the buffer, buffer full. -/
def Obligations.BitEventRecordsOrDrops : Prop :=
  ∀ (s : State) (v : Bool) (i : Instr), i = (if v then .wbit1 else .wbit0) →
    (s.cfg.configured = false →
      exec i s = .next { s with
        respValid := true, respStatus := .notConfigured, respData := 0x00 }) ∧
    (s.cfg.configured = true → s.cfg.mode = .uart →
      exec i s = .next { s with
        respValid := true, respStatus := .modeMismatch, respData := 0x00 }) ∧
    (s.cfg.configured = true → s.cfg.mode = .wiegand →
      ∀ h : s.wcount.toNat < 100,
      exec i s = .next { s with
        wbuf := s.wbuf.set s.wcount.toNat v h, wcount := BitVec.ofNat 7 (s.wcount.toNat + 1)
        respValid := true, respStatus := .ok, respData := 0x00 }) ∧
    (s.cfg.configured = true → s.cfg.mode = .wiegand → 100 ≤ s.wcount.toNat →
      exec i s = .next { s with
        respValid := true, respStatus := .ok, respData := 0x00 })

/-- R130 (90_conflicts.md C7): writing the 0 of WBIT0 explicitly is the same as leaving it implicit in a cleared buffer. -/
def Obligations.ZeroBitImplicitInClearedBuffer : Prop :=
  ∀ s t : State, s.TailsClear → exec .wbit0 s = .next t → t.wbuf = s.wbuf

/-- R56 (c), R84: the bit at the lowest arrival index of a field is its most significant bit. -/
def Obligations.FieldMostSignificantFirst : Prop :=
  ∀ (wbuf : Vector Bool 100) (start n i : Nat) (_ : i < n) (_ : start + n ≤ 100),
    (field wbuf start n).getMsbD i = wbuf[start + i]

/-- R136, 95_test_vectors.md W8: changing any one bit of a 26-bit frame that passes parity makes it fail. -/
def Obligations.OneFlippedBitFailsParity : Prop :=
  ∀ (wbuf : Vector Bool 100) (p : Nat) (h : p < 100), p < 26 → parity26 wbuf = true →
    parity26 (wbuf.set p (!wbuf[p]) h) = false

/-- R135, 95_test_vectors.md W6: any 35 bits delivered to a fresh 35-bit cycle, then a POLL, give the two slices, valid
whatever the other bits are. The bits arrive by R132, the POLL finalizes by R165 and R137, and the numeric value of `id` rests
on the order of the card code's bits that the spec decides (D33, U11). -/
def Obligations.ThirtyFiveBitFrameExtracted : Prop :=
  ∀ (s : State) (bits : List Bool), s.cfg.configured = true → s.cfg.mode = .wiegand →
    s.cfg.len = 35 → s.wcount = 0 → bits.length = 35 →
    ∃ t, deliverAll (wbits bits ++ [onDefaultPort .poll]) s = .next t ∧
      t.tr = {
        mfr := BitVec.ofNat 16 (bitsValue ((bits.drop 2).take 12))
        id := BitVec.ofNat 24 (bitsValue ((bits.drop 14).take 20))
        cks := 0, valid := true, raw := Vector.replicate 12 0x00 } ∧
      t.available = true ∧ t.wcount = 35 ∧ t.respStatus = .ok ∧ t.respData = 0x01

/-- R136, 95_test_vectors.md W7: any 26 bits delivered to a fresh 26-bit cycle, then a POLL, give the 24 middle bits, valid
exactly when bits 0 to 12 have even parity and bits 13 to 25 odd parity. The bits arrive by R132, the POLL finalizes by R165
and R137, and `mfr = 0` rests on the spec's decision (D16, U10). -/
def Obligations.TwentySixBitFrameExtracted : Prop :=
  ∀ (s : State) (bits : List Bool), s.cfg.configured = true → s.cfg.mode = .wiegand →
    s.cfg.len = 26 → s.wcount = 0 → bits.length = 26 →
    ∃ t, deliverAll (wbits bits ++ [onDefaultPort .poll]) s = .next t ∧
      t.tr = {
        mfr := 0, id := BitVec.ofNat 24 (bitsValue ((bits.drop 1).take 24)), cks := 0
        valid := !xorBits (bits.take 13) && xorBits (bits.drop 13)
        raw := Vector.replicate 12 0x00 } ∧
      t.available = true ∧ t.wcount = 26 ∧ t.respStatus = .ok ∧ t.respData = 0x01

/-! ### POLL and READID -/

/-- R165: POLL is the word 0x400, and its cases. A complete Wiegand cycle is finalized and answered 1; otherwise POLL
answers `available` and changes nothing. -/
def Obligations.PollFinalizesOrReports : Prop :=
  decode 0x400 = some .poll ∧
  ∀ s : State,
    (s.cfg.configured = false →
      exec .poll s = .next { s with
        respValid := true, respStatus := .notConfigured, respData := 0x00 }) ∧
    (s.cfg.configured = true → s.cfg.mode = .wiegand → s.wcount = s.cfg.len →
      exec .poll s = .next { s with
        tr := wiegandRecord s.cfg.len s.wbuf, available := true
        respValid := true, respStatus := .ok, respData := 0x01 }) ∧
    (s.cfg.configured = true → (s.cfg.mode = .uart ∨ s.wcount ≠ s.cfg.len) →
      exec .poll s = .next { s with
        respValid := true, respStatus := .ok
        respData := if s.available then 0x01 else 0x00 })

/-- R58: POLL is idempotent: a second POLL gives the same state and the same answer. -/
def Obligations.PollIdempotent : Prop :=
  ∀ s t : State, exec .poll s = .next t → exec .poll t = .next t

/-- R166: READID is the word 0x500. It moves `TR` to `RO`, clears `TR`, `available` and the active decoder's cycle, and
answers what `available` was. -/
def Obligations.ReadidReturnsAndClears : Prop :=
  decode 0x500 = some .readid ∧
  ∀ s : State,
    (s.cfg.configured = false →
      exec .readid s = .next { s with
        respValid := true, respStatus := .notConfigured, respData := 0x00 }) ∧
    (s.cfg.configured = true → s.cfg.mode = .uart →
      exec .readid s = .next { s with
        ro := s.tr, tr := TagRecord.zero, available := false
        ustate := .idle, ucount := 0, ubuf := Vector.replicate 12 0x00
        respValid := true, respStatus := .ok
        respData := if s.available then 0x01 else 0x00 }) ∧
    (s.cfg.configured = true → s.cfg.mode = .wiegand →
      exec .readid s = .next { s with
        ro := s.tr, tr := TagRecord.zero, available := false
        wcount := 0, wbuf := Vector.replicate 100 false
        respValid := true, respStatus := .ok
        respData := if s.available then 0x01 else 0x00 })

/-- R166, R215: READID with nothing available, a Wiegand frame that no POLL finalized included, returns ZeroRecord and
answers 0, and the bits or the frame in progress are cleared. -/
def Obligations.ReadidWithNothingReturnsZeroRecord : Prop :=
  ∀ s : State, s.Inv → s.cfg.configured = true → s.available = false →
    ∃ t, exec .readid s = .next t ∧ t.ro = TagRecord.zero ∧ t.respStatus = .ok ∧
      t.respData = 0x00 ∧ t.wcount = 0 ∧ t.wbuf = zeroBits ∧ t.ucount = 0 ∧ t.ubuf = zeroBytes

/-- R211, 95_test_vectors.md W9: after READID every register but `CFG`, `RO` and the response has its reset value. -/
def Obligations.ReadidLeavesFreshCycle : Prop :=
  ∀ s : State, s.Inv → s.cfg.configured = true →
    exec .readid s = .next { State.reset with
      cfg := s.cfg, ro := s.tr
      respValid := true, respStatus := .ok, respData := if s.available then 0x01 else 0x00
      transport := s.transport, callback := s.callback, host := s.host
      schedule := s.schedule }

/-- R60 (a): a POLL that answers 1 is followed by a READID that returns the record that POLL saw, whatever the transport
and the callback context deliver in between. -/
def Obligations.PollThenReadidReturnsRecord : Prop :=
  ∀ (s t : State) (es : List Event), exec .poll s = .next t → t.respStatus = .ok →
    t.respData = 0x01 → (∀ e ∈ es, e.port ≠ .cmd ∧ e.wellFormed = true) →
    ∃ u v, deliverAll es t = .next u ∧ exec .readid u = .next v ∧
      v.ro = t.tr ∧ v.respStatus = .ok ∧ v.respData = 0x01

/-- R133, R203 (b): a Wiegand cycle that has overrun its length without a record stays so through every clock cycle but one
that resets, reads or reconfigures, and a POLL in it answers 0. -/
def Obligations.StarvedCycleStaysStarved : Prop :=
  ∀ s t : State, s.Starved → s.cycleEnds = false → step s = .next t →
    t.Starved ∧
    (s.pins.cmd.bind decode = some .poll → t.respStatus = .ok ∧ t.respData = 0x00)

/-- R203 (a), R106: while a UART record is held, every clock cycle but one that resets, reads or reconfigures leaves the
record, its availability and the transport's bytes as they are. -/
def Obligations.HeldRecordStays : Prop :=
  ∀ s t : State, s.Held → s.cycleEnds = false → step s = .next t →
    t.Held ∧ t.tr = s.tr ∧ t.transport = s.transport

/-- R60 (a), R137: an available record stays through every clock cycle but one that resets, reads or reconfigures, whatever
the agents present: bits are recorded beside it, bytes are held, and a POLL that finalizes again writes the same record. -/
def Obligations.AvailableRecordStays : Prop :=
  ∀ s t : State, s.Inv → s.available = true → s.cycleEnds = false → step s = .next t →
    t.available = true ∧ t.tr = s.tr

/-! ### CONFIG and HEXDEC -/

/-- R168: CONFIG resets every register but the response registers and sets `CFG`: UART (the length bits ignored), WIEGAND
with 26 or 35, or, for any other length, unconfigured with CFG_ERROR. Its word is 0x600 with `mode` in bit 7 and `len`
below. -/
def Obligations.ConfigResetsAndSelects : Prop :=
  ∀ (s : State) (len : BitVec 7),
    decode (0x600 ||| len.setWidth 12) = some (.config .uart len) ∧
    decode (0x600 ||| 1 <<< 7 ||| len.setWidth 12) = some (.config .wiegand len) ∧
    exec (.config .uart len) s = .next { State.reset with
      cfg := { configured := true, mode := .uart, len := 0 }
      respValid := true, respStatus := .ok, respData := 0x00
      transport := s.transport, callback := s.callback, host := s.host
      schedule := s.schedule } ∧
    ((len = 26 ∨ len = 35) →
      exec (.config .wiegand len) s = .next { State.reset with
        cfg := { configured := true, mode := .wiegand, len := len }
        respValid := true, respStatus := .ok, respData := 0x00
        transport := s.transport, callback := s.callback, host := s.host
        schedule := s.schedule }) ∧
    (len ≠ 26 → len ≠ 35 →
      exec (.config .wiegand len) s = .next { State.reset with
        cfg := { configured := false, mode := .uart, len := 0 }
        respValid := true, respStatus := .cfgError, respData := 0x00
        transport := s.transport, callback := s.callback, host := s.host
        schedule := s.schedule })

/-- R169: after a CONFIG with an unsupported length, every later UART_BYTE, WBIT0, WBIT1, POLL and READID responds
NOT_CONFIGURED until a successful CONFIG: the later events may hold any CONFIG that fails again. -/
def Obligations.UnsupportedLengthLeavesUnconfigured : Prop :=
  ∀ (s : State) (len : BitVec 7) (es : List Event), len ≠ 26 → len ≠ 35 →
    (∀ e ∈ es, ∀ m l, e.instr = .config m l → m = .wiegand ∧ l ≠ 26 ∧ l ≠ 35) →
    ∃ t u, exec (.config .wiegand len) s = .next t ∧ t.respStatus = .cfgError ∧
      t.cfg.configured = false ∧ deliverAll es t = .next u ∧
      ∀ i, needsConfig i = true →
        exec i u = .next { u with
          respValid := true, respStatus := .notConfigured, respData := 0x00 }

/-- R170: HEXDEC is the word 0x700 with the character below. It answers the value of a hex digit, or HEX_INVALID, and
changes nothing else, configured or not. -/
def Obligations.HexdecAnswersDigit : Prop :=
  ∀ (s : State) (c : Byte),
    decode (0x700 ||| c.setWidth 12) = some (.hexdec c) ∧
    (∀ v : BitVec 4, hexNibble c = (v, true) →
      exec (.hexdec c) s = .next { s with
        respValid := true, respStatus := .ok, respData := BitVec.ofNat 8 v.toNat }) ∧
    ((hexNibble c).2 = false →
      exec (.hexdec c) s = .next { s with
        respValid := true, respStatus := .hexInvalid, respData := 0x00 })
end

