-- ==== Sys2Proof/Laws/Operands.lean ====
section
/-! SUPPORT. What the hex fields and the bit fields of Machine/Operands.lean are, each said once. -/

namespace Sys2Proof.Machine

theorem hexNibble_lt (c : Byte) : (hexNibble c).1.toNat < 16 := (hexNibble c).1.isLt

/-- A shift and an or of a nibble are a multiplication and an addition. -/
theorem hexStep_eq (acc : Nat × Bool) (c : Byte) :
    hexStep acc c = (16 * acc.1 + (hexNibble c).1.toNat, acc.2 && (hexNibble c).2) := by
  have h : (hexNibble c).1.toNat < 2 ^ 4 := hexNibble_lt c
  simp only [hexStep, Prod.mk.injEq, and_true]
  rw [← Nat.shiftLeft_add_eq_or_of_lt h, Nat.shiftLeft_eq]
  omega

theorem hexField_snoc (cs : List Byte) (c : Byte) :
    hexField (cs ++ [c]) = hexStep (hexField cs) c := by
  simp [hexField, List.foldl_append]

/-- No overflow: `n` hex characters are below `16 ^ n` (R82). -/
theorem hexField_lt (cs : List Byte) : (hexField cs).1 < 16 ^ cs.length := by
  induction cs using List.reverseRecOn with
  | nil => simp [hexField]
  | append_singleton cs c ih =>
    have := hexNibble_lt c
    rw [hexField_snoc, hexStep_eq, List.length_append, List.length_singleton, Nat.pow_succ]
    dsimp only
    omega

/-- The flag of a field is the conjunction of its characters' flags (R82). -/
theorem hexField_ok_iff (cs : List Byte) :
    (hexField cs).2 = true ↔ ∀ c ∈ cs, (hexNibble c).2 = true := by
  induction cs using List.reverseRecOn with
  | nil => simp [hexField]
  | append_singleton cs c ih =>
    rw [hexField_snoc, hexStep_eq]
    simp only [Bool.and_eq_true, ih, List.mem_append, List.mem_singleton]
    constructor
    · rintro ⟨h, hc⟩ x (hx | rfl)
      · exact h x hx
      · exact hc
    · exact fun h => ⟨fun x hx => h x (Or.inl hx), h c (Or.inr rfl)⟩

/-- Two hex characters as one number. -/
theorem hexField_pair (a b : Byte) :
    hexField [a, b] =
      (16 * (hexNibble a).1.toNat + (hexNibble b).1.toNat,
        (hexNibble a).2 && (hexNibble b).2) := by
  simp [hexField, hexStep_eq]

/-- A write inside a buffer, with and without its bound. -/
theorem setIfInBounds_eq_set {α : Type} {n : Nat} (xs : Vector α n) (i : Nat) (v : α)
    (h : i < n) : xs.setIfInBounds i v = xs.set i v h := by
  apply Vector.ext
  intro j hj
  rw [Vector.getElem_setIfInBounds hj, Vector.getElem_set]

theorem bitAt_eq (wbuf : Vector Bool 100) (i : Nat) (h : i < 100) :
    bitAt wbuf i = (wbuf[i]).toNat := by
  simp [bitAt, h]

theorem bitAt_le_one (wbuf : Vector Bool 100) (i : Nat) : bitAt wbuf i ≤ 1 := by
  unfold bitAt
  cases wbuf[i]?.getD false <;> simp

/-- A write at one index is seen at that index alone. -/
theorem bitAt_setIfInBounds_ne (wbuf : Vector Bool 100) (i j : Nat) (v : Bool) (h : i ≠ j) :
    bitAt (wbuf.setIfInBounds i v) j = bitAt wbuf j := by
  simp [bitAt, h]

/-- A field reads its own indices and no other. -/
theorem field_congr (a b : Vector Bool 100) (start n : Nat)
    (h : ∀ i, i < n → bitAt a (start + i) = bitAt b (start + i)) :
    field a start n = field b start n := by
  unfold field
  congr 2
  exact List.map_congr_left fun i hi => by rw [h i (List.mem_range.mp hi)]

/-- A count of ones reads its own indices and no other. -/
theorem popcount_congr (a b : Vector Bool 100) (lo hi : Nat)
    (h : ∀ i, lo ≤ i → i ≤ hi → bitAt a i = bitAt b i) :
    popcount a lo hi = popcount b lo hi := by
  unfold popcount
  congr 1
  exact List.map_congr_left fun i hi' => h _ (by omega) (by have := List.mem_range.mp hi'; omega)

/-- The record of a Wiegand cycle depends on the first `len` bits alone (R137). -/
theorem wiegandRecord_congr (len : BitVec 7) (a b : Vector Bool 100)
    (h : ∀ i, i < len.toNat → bitAt a i = bitAt b i) :
    wiegandRecord len a = wiegandRecord len b := by
  unfold wiegandRecord
  split
  · next hl =>
    subst hl
    rw [field_congr a b 2 12 fun i hi => h _ (by simp; omega),
      field_congr a b 14 20 fun i hi => h _ (by simp; omega)]
  · split
    · next hl =>
      subst hl
      rw [field_congr a b 1 24 fun i hi => h _ (by simp; omega)]
      unfold parity26
      rw [popcount_congr a b 1 12 fun i _ hi => h _ (by simp; omega),
        popcount_congr a b 13 24 fun i _ hi => h _ (by simp; omega),
        h 0 (by simp), h 25 (by simp)]
    · rfl

end Sys2Proof.Machine
end

