-- ==== Sys2Proof/Laws/State.lean ====
section
/-! SUPPORT. For each update of State in Machine/Ops.lean, what each field holds after it. -/

namespace Sys2Proof.Machine

variable (s : State)

/-! ### respond -/

@[simp] theorem State.respond_cfg (st : Status) (d : Byte) : (s.respond st d).cfg = s.cfg := rfl
@[simp] theorem State.respond_ustate (st : Status) (d : Byte) : (s.respond st d).ustate = s.ustate := rfl
@[simp] theorem State.respond_ucount (st : Status) (d : Byte) : (s.respond st d).ucount = s.ucount := rfl
@[simp] theorem State.respond_ubuf (st : Status) (d : Byte) : (s.respond st d).ubuf = s.ubuf := rfl
@[simp] theorem State.respond_wcount (st : Status) (d : Byte) : (s.respond st d).wcount = s.wcount := rfl
@[simp] theorem State.respond_wbuf (st : Status) (d : Byte) : (s.respond st d).wbuf = s.wbuf := rfl
@[simp] theorem State.respond_tr (st : Status) (d : Byte) : (s.respond st d).tr = s.tr := rfl
@[simp] theorem State.respond_available (st : Status) (d : Byte) : (s.respond st d).available = s.available := rfl
@[simp] theorem State.respond_ro (st : Status) (d : Byte) : (s.respond st d).ro = s.ro := rfl
@[simp] theorem State.respond_respValid (st : Status) (d : Byte) : (s.respond st d).respValid = true := rfl
@[simp] theorem State.respond_respStatus (st : Status) (d : Byte) : (s.respond st d).respStatus = st := rfl
@[simp] theorem State.respond_respData (st : Status) (d : Byte) : (s.respond st d).respData = d := rfl
@[simp] theorem State.respond_transport (st : Status) (d : Byte) : (s.respond st d).transport = s.transport := rfl
@[simp] theorem State.respond_callback (st : Status) (d : Byte) : (s.respond st d).callback = s.callback := rfl
@[simp] theorem State.respond_host (st : Status) (d : Byte) : (s.respond st d).host = s.host := rfl
@[simp] theorem State.respond_schedule (st : Status) (d : Byte) : (s.respond st d).schedule = s.schedule := rfl

/-! ### dropResponse -/

@[simp] theorem State.dropResponse_cfg : s.dropResponse.cfg = s.cfg := rfl
@[simp] theorem State.dropResponse_ustate : s.dropResponse.ustate = s.ustate := rfl
@[simp] theorem State.dropResponse_ucount : s.dropResponse.ucount = s.ucount := rfl
@[simp] theorem State.dropResponse_ubuf : s.dropResponse.ubuf = s.ubuf := rfl
@[simp] theorem State.dropResponse_wcount : s.dropResponse.wcount = s.wcount := rfl
@[simp] theorem State.dropResponse_wbuf : s.dropResponse.wbuf = s.wbuf := rfl
@[simp] theorem State.dropResponse_tr : s.dropResponse.tr = s.tr := rfl
@[simp] theorem State.dropResponse_available : s.dropResponse.available = s.available := rfl
@[simp] theorem State.dropResponse_ro : s.dropResponse.ro = s.ro := rfl
@[simp] theorem State.dropResponse_respValid : s.dropResponse.respValid = false := rfl
@[simp] theorem State.dropResponse_respStatus : s.dropResponse.respStatus = s.respStatus := rfl
@[simp] theorem State.dropResponse_respData : s.dropResponse.respData = s.respData := rfl
@[simp] theorem State.dropResponse_transport : s.dropResponse.transport = s.transport := rfl
@[simp] theorem State.dropResponse_callback : s.dropResponse.callback = s.callback := rfl
@[simp] theorem State.dropResponse_host : s.dropResponse.host = s.host := rfl
@[simp] theorem State.dropResponse_schedule : s.dropResponse.schedule = s.schedule := rfl

/-! ### clearUart -/

@[simp] theorem State.clearUart_cfg : s.clearUart.cfg = s.cfg := rfl
@[simp] theorem State.clearUart_ustate : s.clearUart.ustate = .idle := rfl
@[simp] theorem State.clearUart_ucount : s.clearUart.ucount = 0 := rfl
@[simp] theorem State.clearUart_ubuf : s.clearUart.ubuf = zeroBytes := rfl
@[simp] theorem State.clearUart_wcount : s.clearUart.wcount = s.wcount := rfl
@[simp] theorem State.clearUart_wbuf : s.clearUart.wbuf = s.wbuf := rfl
@[simp] theorem State.clearUart_tr : s.clearUart.tr = s.tr := rfl
@[simp] theorem State.clearUart_available : s.clearUart.available = s.available := rfl
@[simp] theorem State.clearUart_ro : s.clearUart.ro = s.ro := rfl
@[simp] theorem State.clearUart_respValid : s.clearUart.respValid = s.respValid := rfl
@[simp] theorem State.clearUart_respStatus : s.clearUart.respStatus = s.respStatus := rfl
@[simp] theorem State.clearUart_respData : s.clearUart.respData = s.respData := rfl
@[simp] theorem State.clearUart_transport : s.clearUart.transport = s.transport := rfl
@[simp] theorem State.clearUart_callback : s.clearUart.callback = s.callback := rfl
@[simp] theorem State.clearUart_host : s.clearUart.host = s.host := rfl
@[simp] theorem State.clearUart_schedule : s.clearUart.schedule = s.schedule := rfl

/-! ### startFrame -/

@[simp] theorem State.startFrame_cfg : s.startFrame.cfg = s.cfg := rfl
@[simp] theorem State.startFrame_ustate : s.startFrame.ustate = .reading := rfl
@[simp] theorem State.startFrame_ucount : s.startFrame.ucount = 0 := rfl
@[simp] theorem State.startFrame_ubuf : s.startFrame.ubuf = zeroBytes := rfl
@[simp] theorem State.startFrame_wcount : s.startFrame.wcount = s.wcount := rfl
@[simp] theorem State.startFrame_wbuf : s.startFrame.wbuf = s.wbuf := rfl
@[simp] theorem State.startFrame_tr : s.startFrame.tr = TagRecord.zero := rfl
@[simp] theorem State.startFrame_available : s.startFrame.available = s.available := rfl
@[simp] theorem State.startFrame_ro : s.startFrame.ro = s.ro := rfl
@[simp] theorem State.startFrame_respValid : s.startFrame.respValid = s.respValid := rfl
@[simp] theorem State.startFrame_respStatus : s.startFrame.respStatus = s.respStatus := rfl
@[simp] theorem State.startFrame_respData : s.startFrame.respData = s.respData := rfl
@[simp] theorem State.startFrame_transport : s.startFrame.transport = s.transport := rfl
@[simp] theorem State.startFrame_callback : s.startFrame.callback = s.callback := rfl
@[simp] theorem State.startFrame_host : s.startFrame.host = s.host := rfl
@[simp] theorem State.startFrame_schedule : s.startFrame.schedule = s.schedule := rfl

/-! ### pushByte -/

@[simp] theorem State.pushByte_cfg (b : Byte) : (s.pushByte b).cfg = s.cfg := rfl
@[simp] theorem State.pushByte_ustate (b : Byte) : (s.pushByte b).ustate = s.ustate := rfl
@[simp] theorem State.pushByte_ucount (b : Byte) : (s.pushByte b).ucount = s.ucount + 1 := rfl
@[simp] theorem State.pushByte_ubuf (b : Byte) : (s.pushByte b).ubuf = s.ubuf.setIfInBounds s.ucount.toNat b := rfl
@[simp] theorem State.pushByte_wcount (b : Byte) : (s.pushByte b).wcount = s.wcount := rfl
@[simp] theorem State.pushByte_wbuf (b : Byte) : (s.pushByte b).wbuf = s.wbuf := rfl
@[simp] theorem State.pushByte_tr (b : Byte) : (s.pushByte b).tr = s.tr := rfl
@[simp] theorem State.pushByte_available (b : Byte) : (s.pushByte b).available = s.available := rfl
@[simp] theorem State.pushByte_ro (b : Byte) : (s.pushByte b).ro = s.ro := rfl
@[simp] theorem State.pushByte_respValid (b : Byte) : (s.pushByte b).respValid = s.respValid := rfl
@[simp] theorem State.pushByte_respStatus (b : Byte) : (s.pushByte b).respStatus = s.respStatus := rfl
@[simp] theorem State.pushByte_respData (b : Byte) : (s.pushByte b).respData = s.respData := rfl
@[simp] theorem State.pushByte_transport (b : Byte) : (s.pushByte b).transport = s.transport := rfl
@[simp] theorem State.pushByte_callback (b : Byte) : (s.pushByte b).callback = s.callback := rfl
@[simp] theorem State.pushByte_host (b : Byte) : (s.pushByte b).host = s.host := rfl
@[simp] theorem State.pushByte_schedule (b : Byte) : (s.pushByte b).schedule = s.schedule := rfl

/-! ### clearBits -/

@[simp] theorem State.clearBits_cfg : s.clearBits.cfg = s.cfg := rfl
@[simp] theorem State.clearBits_ustate : s.clearBits.ustate = s.ustate := rfl
@[simp] theorem State.clearBits_ucount : s.clearBits.ucount = s.ucount := rfl
@[simp] theorem State.clearBits_ubuf : s.clearBits.ubuf = s.ubuf := rfl
@[simp] theorem State.clearBits_wcount : s.clearBits.wcount = 0 := rfl
@[simp] theorem State.clearBits_wbuf : s.clearBits.wbuf = zeroBits := rfl
@[simp] theorem State.clearBits_tr : s.clearBits.tr = s.tr := rfl
@[simp] theorem State.clearBits_available : s.clearBits.available = s.available := rfl
@[simp] theorem State.clearBits_ro : s.clearBits.ro = s.ro := rfl
@[simp] theorem State.clearBits_respValid : s.clearBits.respValid = s.respValid := rfl
@[simp] theorem State.clearBits_respStatus : s.clearBits.respStatus = s.respStatus := rfl
@[simp] theorem State.clearBits_respData : s.clearBits.respData = s.respData := rfl
@[simp] theorem State.clearBits_transport : s.clearBits.transport = s.transport := rfl
@[simp] theorem State.clearBits_callback : s.clearBits.callback = s.callback := rfl
@[simp] theorem State.clearBits_host : s.clearBits.host = s.host := rfl
@[simp] theorem State.clearBits_schedule : s.clearBits.schedule = s.schedule := rfl

/-! ### pushBit -/

@[simp] theorem State.pushBit_cfg (v : Bool) : (s.pushBit v).cfg = s.cfg := rfl
@[simp] theorem State.pushBit_ustate (v : Bool) : (s.pushBit v).ustate = s.ustate := rfl
@[simp] theorem State.pushBit_ucount (v : Bool) : (s.pushBit v).ucount = s.ucount := rfl
@[simp] theorem State.pushBit_ubuf (v : Bool) : (s.pushBit v).ubuf = s.ubuf := rfl
@[simp] theorem State.pushBit_wcount (v : Bool) : (s.pushBit v).wcount = s.wcount + 1 := rfl
@[simp] theorem State.pushBit_wbuf (v : Bool) : (s.pushBit v).wbuf = s.wbuf.setIfInBounds s.wcount.toNat v := rfl
@[simp] theorem State.pushBit_tr (v : Bool) : (s.pushBit v).tr = s.tr := rfl
@[simp] theorem State.pushBit_available (v : Bool) : (s.pushBit v).available = s.available := rfl
@[simp] theorem State.pushBit_ro (v : Bool) : (s.pushBit v).ro = s.ro := rfl
@[simp] theorem State.pushBit_respValid (v : Bool) : (s.pushBit v).respValid = s.respValid := rfl
@[simp] theorem State.pushBit_respStatus (v : Bool) : (s.pushBit v).respStatus = s.respStatus := rfl
@[simp] theorem State.pushBit_respData (v : Bool) : (s.pushBit v).respData = s.respData := rfl
@[simp] theorem State.pushBit_transport (v : Bool) : (s.pushBit v).transport = s.transport := rfl
@[simp] theorem State.pushBit_callback (v : Bool) : (s.pushBit v).callback = s.callback := rfl
@[simp] theorem State.pushBit_host (v : Bool) : (s.pushBit v).host = s.host := rfl
@[simp] theorem State.pushBit_schedule (v : Bool) : (s.pushBit v).schedule = s.schedule := rfl

/-! ### finalize -/

@[simp] theorem State.finalize_cfg (r : TagRecord) : (s.finalize r).cfg = s.cfg := rfl
@[simp] theorem State.finalize_ustate (r : TagRecord) : (s.finalize r).ustate = s.ustate := rfl
@[simp] theorem State.finalize_ucount (r : TagRecord) : (s.finalize r).ucount = s.ucount := rfl
@[simp] theorem State.finalize_ubuf (r : TagRecord) : (s.finalize r).ubuf = s.ubuf := rfl
@[simp] theorem State.finalize_wcount (r : TagRecord) : (s.finalize r).wcount = s.wcount := rfl
@[simp] theorem State.finalize_wbuf (r : TagRecord) : (s.finalize r).wbuf = s.wbuf := rfl
@[simp] theorem State.finalize_tr (r : TagRecord) : (s.finalize r).tr = r := rfl
@[simp] theorem State.finalize_available (r : TagRecord) : (s.finalize r).available = true := rfl
@[simp] theorem State.finalize_ro (r : TagRecord) : (s.finalize r).ro = s.ro := rfl
@[simp] theorem State.finalize_respValid (r : TagRecord) : (s.finalize r).respValid = s.respValid := rfl
@[simp] theorem State.finalize_respStatus (r : TagRecord) : (s.finalize r).respStatus = s.respStatus := rfl
@[simp] theorem State.finalize_respData (r : TagRecord) : (s.finalize r).respData = s.respData := rfl
@[simp] theorem State.finalize_transport (r : TagRecord) : (s.finalize r).transport = s.transport := rfl
@[simp] theorem State.finalize_callback (r : TagRecord) : (s.finalize r).callback = s.callback := rfl
@[simp] theorem State.finalize_host (r : TagRecord) : (s.finalize r).host = s.host := rfl
@[simp] theorem State.finalize_schedule (r : TagRecord) : (s.finalize r).schedule = s.schedule := rfl

/-! ### takeRecord -/

@[simp] theorem State.takeRecord_cfg : s.takeRecord.cfg = s.cfg := rfl
@[simp] theorem State.takeRecord_ustate : s.takeRecord.ustate = s.ustate := rfl
@[simp] theorem State.takeRecord_ucount : s.takeRecord.ucount = s.ucount := rfl
@[simp] theorem State.takeRecord_ubuf : s.takeRecord.ubuf = s.ubuf := rfl
@[simp] theorem State.takeRecord_wcount : s.takeRecord.wcount = s.wcount := rfl
@[simp] theorem State.takeRecord_wbuf : s.takeRecord.wbuf = s.wbuf := rfl
@[simp] theorem State.takeRecord_tr : s.takeRecord.tr = TagRecord.zero := rfl
@[simp] theorem State.takeRecord_available : s.takeRecord.available = false := rfl
@[simp] theorem State.takeRecord_ro : s.takeRecord.ro = s.tr := rfl
@[simp] theorem State.takeRecord_respValid : s.takeRecord.respValid = s.respValid := rfl
@[simp] theorem State.takeRecord_respStatus : s.takeRecord.respStatus = s.respStatus := rfl
@[simp] theorem State.takeRecord_respData : s.takeRecord.respData = s.respData := rfl
@[simp] theorem State.takeRecord_transport : s.takeRecord.transport = s.transport := rfl
@[simp] theorem State.takeRecord_callback : s.takeRecord.callback = s.callback := rfl
@[simp] theorem State.takeRecord_host : s.takeRecord.host = s.host := rfl
@[simp] theorem State.takeRecord_schedule : s.takeRecord.schedule = s.schedule := rfl

/-! ### configure -/

@[simp] theorem State.configure_cfg (c : Cfg) : (s.configure c).cfg = c := rfl
@[simp] theorem State.configure_ustate (c : Cfg) : (s.configure c).ustate = .idle := rfl
@[simp] theorem State.configure_ucount (c : Cfg) : (s.configure c).ucount = 0 := rfl
@[simp] theorem State.configure_ubuf (c : Cfg) : (s.configure c).ubuf = zeroBytes := rfl
@[simp] theorem State.configure_wcount (c : Cfg) : (s.configure c).wcount = 0 := rfl
@[simp] theorem State.configure_wbuf (c : Cfg) : (s.configure c).wbuf = zeroBits := rfl
@[simp] theorem State.configure_tr (c : Cfg) : (s.configure c).tr = TagRecord.zero := rfl
@[simp] theorem State.configure_available (c : Cfg) : (s.configure c).available = false := rfl
@[simp] theorem State.configure_ro (c : Cfg) : (s.configure c).ro = TagRecord.zero := rfl
@[simp] theorem State.configure_respValid (c : Cfg) : (s.configure c).respValid = s.respValid := rfl
@[simp] theorem State.configure_respStatus (c : Cfg) : (s.configure c).respStatus = s.respStatus := rfl
@[simp] theorem State.configure_respData (c : Cfg) : (s.configure c).respData = s.respData := rfl
@[simp] theorem State.configure_transport (c : Cfg) : (s.configure c).transport = s.transport := rfl
@[simp] theorem State.configure_callback (c : Cfg) : (s.configure c).callback = s.callback := rfl
@[simp] theorem State.configure_host (c : Cfg) : (s.configure c).host = s.host := rfl
@[simp] theorem State.configure_schedule (c : Cfg) : (s.configure c).schedule = s.schedule := rfl

/-! ### blockReset -/

@[simp] theorem State.blockReset_cfg : s.blockReset.cfg = { configured := false, mode := .uart, len := 0 } := rfl
@[simp] theorem State.blockReset_ustate : s.blockReset.ustate = .idle := rfl
@[simp] theorem State.blockReset_ucount : s.blockReset.ucount = 0 := rfl
@[simp] theorem State.blockReset_ubuf : s.blockReset.ubuf = zeroBytes := rfl
@[simp] theorem State.blockReset_wcount : s.blockReset.wcount = 0 := rfl
@[simp] theorem State.blockReset_wbuf : s.blockReset.wbuf = zeroBits := rfl
@[simp] theorem State.blockReset_tr : s.blockReset.tr = TagRecord.zero := rfl
@[simp] theorem State.blockReset_available : s.blockReset.available = false := rfl
@[simp] theorem State.blockReset_ro : s.blockReset.ro = TagRecord.zero := rfl
@[simp] theorem State.blockReset_respValid : s.blockReset.respValid = false := rfl
@[simp] theorem State.blockReset_respStatus : s.blockReset.respStatus = .ok := rfl
@[simp] theorem State.blockReset_respData : s.blockReset.respData = 0 := rfl
@[simp] theorem State.blockReset_transport : s.blockReset.transport = s.transport := rfl
@[simp] theorem State.blockReset_callback : s.blockReset.callback = s.callback := rfl
@[simp] theorem State.blockReset_host : s.blockReset.host = s.host := rfl
@[simp] theorem State.blockReset_schedule : s.blockReset.schedule = s.schedule := rfl

/-! ### keepResponse -/

@[simp] theorem State.keepResponse_cfg (old : State) : (State.keepResponse old s).cfg = s.cfg := rfl
@[simp] theorem State.keepResponse_ustate (old : State) : (State.keepResponse old s).ustate = s.ustate := rfl
@[simp] theorem State.keepResponse_ucount (old : State) : (State.keepResponse old s).ucount = s.ucount := rfl
@[simp] theorem State.keepResponse_ubuf (old : State) : (State.keepResponse old s).ubuf = s.ubuf := rfl
@[simp] theorem State.keepResponse_wcount (old : State) : (State.keepResponse old s).wcount = s.wcount := rfl
@[simp] theorem State.keepResponse_wbuf (old : State) : (State.keepResponse old s).wbuf = s.wbuf := rfl
@[simp] theorem State.keepResponse_tr (old : State) : (State.keepResponse old s).tr = s.tr := rfl
@[simp] theorem State.keepResponse_available (old : State) : (State.keepResponse old s).available = s.available := rfl
@[simp] theorem State.keepResponse_ro (old : State) : (State.keepResponse old s).ro = s.ro := rfl
@[simp] theorem State.keepResponse_respValid (old : State) : (State.keepResponse old s).respValid = old.respValid := rfl
@[simp] theorem State.keepResponse_respStatus (old : State) : (State.keepResponse old s).respStatus = old.respStatus := rfl
@[simp] theorem State.keepResponse_respData (old : State) : (State.keepResponse old s).respData = old.respData := rfl
@[simp] theorem State.keepResponse_transport (old : State) : (State.keepResponse old s).transport = s.transport := rfl
@[simp] theorem State.keepResponse_callback (old : State) : (State.keepResponse old s).callback = s.callback := rfl
@[simp] theorem State.keepResponse_host (old : State) : (State.keepResponse old s).host = s.host := rfl
@[simp] theorem State.keepResponse_schedule (old : State) : (State.keepResponse old s).schedule = s.schedule := rfl

end Sys2Proof.Machine
end

