-- ==== Sys2Proof/Laws/Events.lean ====
section
/-! SUPPORT. What each event does, one lemma for each of its cases, and once for each event everything it can do. -/

namespace Sys2Proof.Machine

/-! ### Turning an event away -/

theorem gate_unconfigured (need : Option Mode) (s : State) (h : s.cfg.configured = false) :
    s.gate need = some .notConfigured := by simp [State.gate, h]

theorem gate_open (s : State) (h : s.cfg.configured = true) : s.gate none = none := by
  simp [State.gate, h]

theorem gate_match (m : Mode) (s : State) (h : s.cfg.configured = true) (hm : s.cfg.mode = m) :
    s.gate (some m) = none := by simp [State.gate, h, hm]

theorem gate_mismatch (m : Mode) (s : State) (h : s.cfg.configured = true) (hm : s.cfg.mode ≠ m) :
    s.gate (some m) = some .modeMismatch := by simp [State.gate, h, hm]

/-- What the gate lets through, and the two statuses it answers. -/
theorem gate_cases (need : Option Mode) (s : State) :
    (s.gate need = none ∧ s.cfg.configured = true ∧ ∀ m, need = some m → s.cfg.mode = m) ∨
    (s.gate need = some .notConfigured ∧ s.cfg.configured = false) ∨
    (s.gate need = some .modeMismatch ∧ s.cfg.configured = true ∧
      ∃ m, need = some m ∧ s.cfg.mode ≠ m) := by
  cases h : s.cfg.configured with
  | false => exact .inr (.inl ⟨gate_unconfigured need s h, rfl⟩)
  | true =>
    cases need with
    | none => exact .inl ⟨gate_open s h, rfl, by simp⟩
    | some m =>
      by_cases hm : s.cfg.mode = m
      · exact .inl ⟨gate_match m s h hm, rfl, by simp [hm]⟩
      · exact .inr (.inr ⟨gate_mismatch m s h hm, rfl, m, rfl, hm⟩)

/-! ### UART_BYTE -/

theorem acceptByte_start (s : State) : s.acceptByte 0x02 = s.startFrame := by
  simp [State.acceptByte]

theorem acceptByte_idle (b : Byte) (s : State) (hb : b ≠ 0x02) (hs : s.ustate = .idle) :
    s.acceptByte b = s := by
  simp only [State.acceptByte, Config.startMarker, if_neg hb, if_pos hs]

theorem acceptByte_end_full (s : State) (hs : s.ustate = .reading) (hc : s.ucount.toNat = 12) :
    s.acceptByte 0x03 = s.clearUart.finalize (uartRecord s.ubuf) := by
  simp [State.acceptByte, hs, hc]

theorem acceptByte_end_short (s : State) (hs : s.ustate = .reading) (hc : s.ucount.toNat ≠ 12) :
    s.acceptByte 0x03 = s.clearUart := by
  simp [State.acceptByte, hs, hc]

theorem acceptByte_payload (b : Byte) (s : State) (hb : b ≠ 0x02) (hb' : b ≠ 0x03)
    (hs : s.ustate = .reading) (hc : s.ucount.toNat < 12) : s.acceptByte b = s.pushByte b := by
  have hi : s.ustate ≠ .idle := by simp [hs]
  simp only [State.acceptByte, Config.startMarker, Config.endMarker, Config.payloadLen,
    if_neg hb, if_neg hb', if_neg hi, if_pos hc]

theorem acceptByte_overflow (b : Byte) (s : State) (hb : b ≠ 0x02) (hb' : b ≠ 0x03)
    (hs : s.ustate = .reading) (hc : ¬ s.ucount.toNat < 12) : s.acceptByte b = s.clearUart := by
  have hi : s.ustate ≠ .idle := by simp [hs]
  simp only [State.acceptByte, Config.startMarker, Config.endMarker, Config.payloadLen,
    if_neg hb, if_neg hb', if_neg hi, if_neg hc]

/-- Everything an accepted byte can do to the detector (R101 to R105). -/
theorem acceptByte_cases (b : Byte) (s : State) :
    (b = 0x02 ∧ s.acceptByte b = s.startFrame) ∨
    (b ≠ 0x02 ∧ s.ustate = .idle ∧ s.acceptByte b = s) ∨
    (b = 0x03 ∧ s.ustate = .reading ∧ s.ucount.toNat = 12 ∧
      s.acceptByte b = s.clearUart.finalize (uartRecord s.ubuf)) ∨
    (b ≠ 0x02 ∧ b ≠ 0x03 ∧ s.ustate = .reading ∧ s.ucount.toNat < 12 ∧
      s.acceptByte b = s.pushByte b) ∨
    (b ≠ 0x02 ∧ s.ustate = .reading ∧ s.acceptByte b = s.clearUart) := by
  by_cases hb : b = 0x02
  · subst hb; exact .inl ⟨rfl, acceptByte_start s⟩
  · cases hs : s.ustate with
    | idle => exact .inr (.inl ⟨hb, rfl, acceptByte_idle b s hb hs⟩)
    | reading =>
      by_cases hb' : b = 0x03
      · subst hb'
        by_cases hc : s.ucount.toNat = 12
        · exact .inr (.inr (.inl ⟨rfl, rfl, hc, acceptByte_end_full s hs hc⟩))
        · exact .inr (.inr (.inr (.inr ⟨hb, rfl, acceptByte_end_short s hs hc⟩)))
      · by_cases hc : s.ucount.toNat < 12
        · exact .inr (.inr (.inr (.inl ⟨hb, hb', rfl, hc, acceptByte_payload b s hb hb' hs hc⟩)))
        · exact .inr (.inr (.inr (.inr ⟨hb, rfl, acceptByte_overflow b s hb hb' hs hc⟩)))

theorem exec_uartByte_accepted (b : Byte) (s : State) (h : s.cfg.configured = true)
    (hm : s.cfg.mode = .uart) (ha : s.available = false) :
    exec (.uartByte b) s =
      .next ((s.acceptByte b).respond .ok (bitData (finalizesFrame b s))) := by
  simp [exec, execUartByte, gate_match .uart s h hm, ha]

theorem exec_uartByte_held (b : Byte) (s : State) (h : s.cfg.configured = true)
    (hm : s.cfg.mode = .uart) (ha : s.available = true) :
    exec (.uartByte b) s = .next (s.respond .busy 0x00) := by
  simp [exec, execUartByte, gate_match .uart s h hm, ha]

theorem finalizesFrame_end (s : State) (hs : s.ustate = .reading) (hc : s.ucount.toNat = 12) :
    finalizesFrame 0x03 s = true := by simp [finalizesFrame, hs, hc]

theorem finalizesFrame_other (b : Byte) (s : State) (hb : b ≠ 0x03) :
    finalizesFrame b s = false := by
  have : (b == Config.endMarker) = false := beq_false_of_ne hb
  simp only [finalizesFrame, this, Bool.false_and]

theorem finalizesFrame_idle (b : Byte) (s : State) (hs : s.ustate = .idle) :
    finalizesFrame b s = false := by simp [finalizesFrame, hs]

theorem finalizesFrame_short (b : Byte) (s : State) (hc : s.ucount.toNat ≠ 12) :
    finalizesFrame b s = false := by simp [finalizesFrame, hc]

/-- Everything UART_BYTE can do: answer a status and nothing else, or accept the byte. -/
theorem exec_uartByte_cases (b : Byte) (s t : State) (h : exec (.uartByte b) s = .next t) :
    (∃ st, st ≠ .ok ∧ st ≠ .cfgError ∧ t = s.respond st 0x00) ∨
    (s.cfg.configured = true ∧ s.cfg.mode = .uart ∧ s.available = false ∧
      t = (s.acceptByte b).respond .ok (bitData (finalizesFrame b s))) := by
  simp only [exec, execUartByte, Host.Outcome.next.injEq] at h
  obtain ⟨hg, hc, hm⟩ | ⟨hg, -⟩ | ⟨hg, -⟩ := gate_cases (some .uart) s <;>
    simp only [hg] at h
  · split at h
    · exact .inl ⟨.busy, by decide, by decide, h.symm⟩
    · next ha => exact .inr ⟨hc, hm _ rfl, by simpa using ha, h.symm⟩
  · exact .inl ⟨_, by decide, by decide, h.symm⟩
  · exact .inl ⟨_, by decide, by decide, h.symm⟩

/-! ### WBIT0 and WBIT1 -/

theorem wbit_recorded (v : Bool) (s : State) (h : s.cfg.configured = true)
    (hm : s.cfg.mode = .wiegand) (hc : s.wcount.toNat < 100) :
    s.wbit v = (s.pushBit v).respond .ok 0x00 := by
  simp [State.wbit, gate_match .wiegand s h hm, hc]

theorem wbit_dropped (v : Bool) (s : State) (h : s.cfg.configured = true)
    (hm : s.cfg.mode = .wiegand) (hc : ¬ s.wcount.toNat < 100) :
    s.wbit v = s.respond .ok 0x00 := by
  simp only [State.wbit, gate_match .wiegand s h hm, Config.wgCapacity, if_neg hc]

/-- Everything a bit event can do: answer a status and nothing else, or record the bit. -/
theorem wbit_cases (v : Bool) (s : State) :
    (∃ st, st ≠ .cfgError ∧ s.wbit v = s.respond st 0x00) ∨
    (s.cfg.configured = true ∧ s.cfg.mode = .wiegand ∧ s.wcount.toNat < 100 ∧
      s.wbit v = (s.pushBit v).respond .ok 0x00) := by
  obtain ⟨-, hc, hm⟩ | ⟨hg, -⟩ | ⟨hg, -⟩ := gate_cases (some .wiegand) s
  · by_cases hw : s.wcount.toNat < 100
    · exact .inr ⟨hc, hm _ rfl, hw, wbit_recorded v s hc (hm _ rfl) hw⟩
    · exact .inl ⟨.ok, by decide, wbit_dropped v s hc (hm _ rfl) hw⟩
  · exact .inl ⟨.notConfigured, by decide, by simp [State.wbit, hg]⟩
  · exact .inl ⟨.modeMismatch, by decide, by simp [State.wbit, hg]⟩

/-- The counter counts up and does not wrap. -/
theorem wcount_succ (s : State) (h : s.wcount.toNat < 100) :
    (s.wcount + 1).toNat = s.wcount.toNat + 1 := by
  rw [BitVec.toNat_add, show (1 : BitVec 7).toNat = 1 from rfl]
  omega

theorem ucount_succ (s : State) (h : s.ucount.toNat < 12) :
    (s.ucount + 1).toNat = s.ucount.toNat + 1 := by
  rw [BitVec.toNat_add, show (1 : BitVec 4).toNat = 1 from rfl]
  omega

/-! ### POLL, READID, CONFIG, HEXDEC -/

theorem complete_iff (s : State) :
    s.complete = true ↔ s.cfg.mode = .wiegand ∧ s.wcount = s.cfg.len := by
  simp [State.complete]

/-- Everything POLL can do: answer and nothing else, or finalize a complete Wiegand cycle. -/
theorem exec_poll_cases (s t : State) (h : exec .poll s = .next t) :
    (s.cfg.configured = false ∧ t = s.respond .notConfigured 0x00) ∨
    (s.cfg.configured = true ∧ s.complete = false ∧ t = s.respond .ok (bitData s.available)) ∨
    (s.cfg.configured = true ∧ s.cfg.mode = .wiegand ∧ s.wcount = s.cfg.len ∧
      t = (s.finalize (wiegandRecord s.cfg.len s.wbuf)).respond .ok 0x01) := by
  simp only [exec, execPoll, Host.Outcome.next.injEq] at h
  cases hc : s.cfg.configured with
  | false =>
    simp only [gate_unconfigured none s hc] at h
    exact .inl ⟨rfl, h.symm⟩
  | true =>
    simp only [gate_open s hc] at h
    split at h
    · next hf =>
      obtain ⟨hm, hw⟩ := (complete_iff s).mp hf
      exact .inr (.inr ⟨rfl, hm, hw, h.symm⟩)
    · next hf => exact .inr (.inl ⟨rfl, by simpa using hf, h.symm⟩)

/-- Everything READID can do. -/
theorem exec_readid_cases (s t : State) (h : exec .readid s = .next t) :
    (s.cfg.configured = false ∧ t = s.respond .notConfigured 0x00) ∨
    (s.cfg.configured = true ∧ s.cfg.mode = .uart ∧
      t = s.takeRecord.clearUart.respond .ok (bitData s.available)) ∨
    (s.cfg.configured = true ∧ s.cfg.mode = .wiegand ∧
      t = s.takeRecord.clearBits.respond .ok (bitData s.available)) := by
  simp only [exec, execReadid, Host.Outcome.next.injEq] at h
  cases hc : s.cfg.configured with
  | false =>
    simp only [gate_unconfigured none s hc] at h
    exact .inl ⟨rfl, h.symm⟩
  | true =>
    simp only [gate_open s hc, State.clearCycle, State.takeRecord_cfg] at h
    cases hm : s.cfg.mode <;> simp only [hm] at h
    · exact .inr (.inl ⟨rfl, rfl, h.symm⟩)
    · exact .inr (.inr ⟨rfl, rfl, h.symm⟩)

/-- Everything CONFIG can do: one legal configuration, or CFG_ERROR; all other registers are reset either way. -/
theorem exec_config_cases (m : Mode) (l : BitVec 7) (s t : State)
    (h : exec (.config m l) s = .next t) :
    (∃ c : Cfg, c.configured = true ∧
      ((c.mode = .uart ∧ c.len = 0) ∨ (c.mode = .wiegand ∧ (c.len = 26 ∨ c.len = 35))) ∧
      t = (s.configure c).respond .ok 0x00) ∨
    t = (s.configure { configured := false, mode := .uart, len := 0 }).respond .cfgError 0x00 := by
  simp only [exec, execConfig, Host.Outcome.next.injEq] at h
  cases m with
  | uart => exact .inl ⟨_, rfl, .inl ⟨rfl, rfl⟩, h.symm⟩
  | wiegand =>
    simp only at h
    split at h
    · next hl => exact .inl ⟨_, rfl, .inr ⟨rfl, hl⟩, h.symm⟩
    · exact .inr h.symm

/-- HEXDEC answers and does nothing else. -/
theorem exec_hexdec_cases (c : Byte) (s t : State) (h : exec (.hexdec c) s = .next t) :
    ((hexNibble c).2 = true ∧ t = s.respond .ok ((hexNibble c).1.setWidth 8)) ∨
    ((hexNibble c).2 = false ∧ t = s.respond .hexInvalid 0x00) := by
  simp only [exec, execHexdec, Host.Outcome.next.injEq] at h
  split at h
  · next hc => exact .inl ⟨hc, h.symm⟩
  · next hc => exact .inr ⟨by simpa using hc, h.symm⟩

/-! ### Every event -/

/-- Each event ends in a next state. -/
theorem exec_total (i : Instr) (s : State) : ∃ t, exec i s = .next t := by
  cases i <;> exact ⟨_, rfl⟩

/-- Everything an event can do, said once: answer and change nothing else, or have one of six effects. An invariant is a case
analysis of this list. -/
theorem exec_cases {i : Instr} {s t : State} (h : exec i s = .next t) :
    (∃ st d, t = s.respond st d) ∨
    (∃ b d, i = .uartByte b ∧ s.cfg.configured = true ∧ s.cfg.mode = .uart ∧
      s.available = false ∧ t = (s.acceptByte b).respond .ok d) ∨
    (∃ v, i = (if v then .wbit1 else .wbit0) ∧ s.cfg.configured = true ∧
      s.cfg.mode = .wiegand ∧ s.wcount.toNat < 100 ∧ t = (s.pushBit v).respond .ok 0x00) ∨
    (i = .poll ∧ s.cfg.configured = true ∧ s.cfg.mode = .wiegand ∧ s.wcount = s.cfg.len ∧
      t = (s.finalize (wiegandRecord s.cfg.len s.wbuf)).respond .ok 0x01) ∨
    (∃ d, i = .readid ∧ s.cfg.configured = true ∧ s.cfg.mode = .uart ∧
      t = s.takeRecord.clearUart.respond .ok d) ∨
    (∃ d, i = .readid ∧ s.cfg.configured = true ∧ s.cfg.mode = .wiegand ∧
      t = s.takeRecord.clearBits.respond .ok d) ∨
    (∃ m l c st, i = .config m l ∧
      ((c.mode = .uart ∧ c.len = 0) ∨ (c.mode = .wiegand ∧ (c.len = 26 ∨ c.len = 35))) ∧
      t = (s.configure c).respond st 0x00) := by
  cases i with
  | nop =>
    simp only [exec, execNop, Host.Outcome.next.injEq] at h
    exact .inl ⟨_, _, h.symm⟩
  | uartByte b =>
    obtain ⟨st, -, -, rfl⟩ | ⟨hc, hm, ha, rfl⟩ := exec_uartByte_cases b s t h
    · exact .inl ⟨st, _, rfl⟩
    · exact .inr (.inl ⟨b, _, rfl, hc, hm, ha, rfl⟩)
  | wbit0 =>
    simp only [exec, execWbit0, Host.Outcome.next.injEq] at h
    obtain ⟨st, -, hw⟩ | ⟨hc, hm, hn, hw⟩ := wbit_cases false s
    · exact .inl ⟨st, _, h.symm.trans hw⟩
    · exact .inr (.inr (.inl ⟨false, rfl, hc, hm, hn, h.symm.trans hw⟩))
  | wbit1 =>
    simp only [exec, execWbit1, Host.Outcome.next.injEq] at h
    obtain ⟨st, -, hw⟩ | ⟨hc, hm, hn, hw⟩ := wbit_cases true s
    · exact .inl ⟨st, _, h.symm.trans hw⟩
    · exact .inr (.inr (.inl ⟨true, rfl, hc, hm, hn, h.symm.trans hw⟩))
  | poll =>
    obtain ⟨-, rfl⟩ | ⟨-, -, rfl⟩ | ⟨hc, hm, hw, rfl⟩ := exec_poll_cases s t h
    · exact .inl ⟨_, _, rfl⟩
    · exact .inl ⟨_, _, rfl⟩
    · exact .inr (.inr (.inr (.inl ⟨rfl, hc, hm, hw, rfl⟩)))
  | readid =>
    obtain ⟨-, rfl⟩ | ⟨hc, hm, rfl⟩ | ⟨hc, hm, rfl⟩ := exec_readid_cases s t h
    · exact .inl ⟨_, _, rfl⟩
    · exact .inr (.inr (.inr (.inr (.inl ⟨_, rfl, hc, hm, rfl⟩))))
    · exact .inr (.inr (.inr (.inr (.inr (.inl ⟨_, rfl, hc, hm, rfl⟩)))))
  | config m l =>
    obtain ⟨c, -, hl, rfl⟩ | rfl := exec_config_cases m l s t h
    · exact .inr (.inr (.inr (.inr (.inr (.inr ⟨m, l, c, _, rfl, hl, rfl⟩)))))
    · exact .inr (.inr (.inr (.inr (.inr (.inr ⟨m, l, _, _, rfl, .inl ⟨rfl, rfl⟩, rfl⟩)))))
  | hexdec c =>
    obtain ⟨-, rfl⟩ | ⟨-, rfl⟩ := exec_hexdec_cases c s t h
    · exact .inl ⟨_, _, rfl⟩
    · exact .inl ⟨_, _, rfl⟩

@[simp] theorem andThen_next (s : State) (f : State → Host.Outcome State Fault Refusal) :
    andThen (.next s) f = f s := rfl

/-- An outcome that goes on is a next state of both parts. -/
theorem andThen_eq_next {o : Host.Outcome State Fault Refusal}
    {f : State → Host.Outcome State Fault Refusal} {t : State} (h : andThen o f = .next t) :
    ∃ s, o = .next s ∧ f s = .next t := by
  cases o with
  | next s => exact ⟨s, rfl, h⟩
  | fault r => simp [andThen] at h
  | refused r => simp [andThen] at h

/-- A delivered event is the event, with its response kept or discarded. -/
theorem deliver_eq_next {p : Port} {i : Instr} {s t : State} (h : deliver p i s = .next t) :
    ∃ u, exec i s = .next u ∧ (t = u ∨ t = State.keepResponse s u) := by
  cases p
  case cmd => exact ⟨t, h, .inl rfl⟩
  all_goals
    obtain ⟨u, hu, ht⟩ := andThen_eq_next h
    simp only [Host.Outcome.next.injEq] at ht
    exact ⟨u, hu, .inr ht.symm⟩

/-- A word on the command port is an event or an illegal word. -/
theorem runWord_eq_next {w : EventWord} {s t : State} (h : runWord w s = .next t) :
    (∃ i, decode w = some i ∧ exec i s = .next t) ∨
    (decode w = none ∧ t = s.respond .illegal 0x00) := by
  unfold runWord at h
  cases hd : decode w with
  | none =>
    simp only [hd, illegalWord, Host.Outcome.next.injEq] at h
    exact .inr ⟨rfl, h.symm⟩
  | some i => exact .inl ⟨i, rfl, by simpa only [hd] using h⟩

/-- What one clock edge without a reset does: at most four events, one after another (R53). A property that each of these
parts keeps is kept by the edge. -/
theorem clockEdge_parts {p : Pins} {s t : State} (h : clockEdge p s = .next t) :
    (p.rst = true ∧ t = s.blockReset) ∨
    (p.rst = false ∧ ∃ s1 s2 s3,
      deliverWhen p.d0 .d0 .wbit0 s.dropResponse = .next s1 ∧
      deliverWhen p.d1 .d1 .wbit1 s1 = .next s2 ∧
      deliverRx (s.rxReady false) p.rx s2 = .next s3 ∧
      deliverCmd p.cmd s3 = .next t) := by
  unfold clockEdge at h
  split at h
  · next hr =>
    simp only [Host.Outcome.next.injEq] at h
    exact .inl ⟨hr, h.symm⟩
  · next hr =>
    obtain ⟨s1, h1, h⟩ := andThen_eq_next h
    obtain ⟨s2, h2, h⟩ := andThen_eq_next h
    obtain ⟨s3, h3, h4⟩ := andThen_eq_next h
    exact .inr ⟨by simpa using hr, s1, s2, s3, h1, h2, h3, h4⟩

end Sys2Proof.Machine
end

