-- ==== Sys2Proof/Laws/Cycle.lean ====
section
/-! SUPPORT. What a clock edge and a step keep: a property of the state that the response registers and the queues do not
enter, that every event keeps and that reset establishes, is kept by every step. And the queues of the next cycle. -/

namespace Sys2Proof.Machine

/-- A property that neither reads the response registers nor is broken by an event. -/
structure Kept (P : State → Prop) : Prop where
  drop : ∀ s, P s → P s.dropResponse
  respond : ∀ s st d, P s → P (s.respond st d)
  keep : ∀ old s, P s → P (State.keepResponse old s)
  exec : ∀ i s t, P s → exec i s = .next t → P t

variable {P : State → Prop} {s t : State}

theorem Kept.deliver (k : Kept P) {p : Port} {i : Instr} (hs : P s)
    (h : deliver p i s = .next t) : P t := by
  obtain ⟨u, hu, rfl | rfl⟩ := deliver_eq_next h
  · exact k.exec i s _ hs hu
  · exact k.keep s u (k.exec i s u hs hu)

theorem Kept.deliverWhen (k : Kept P) {on : Bool} {p : Port} {i : Instr} (hs : P s)
    (h : deliverWhen on p i s = .next t) : P t := by
  unfold Machine.deliverWhen at h
  split at h
  · exact k.deliver hs h
  · simp only [Host.Outcome.next.injEq] at h; exact h ▸ hs

theorem Kept.deliverRx (k : Kept P) {ready : Bool} {rx : Option Byte} (hs : P s)
    (h : deliverRx ready rx s = .next t) : P t := by
  cases rx with
  | none =>
    simp only [Machine.deliverRx, Host.Outcome.next.injEq] at h
    exact h ▸ hs
  | some b => exact k.deliverWhen hs h

theorem Kept.runWord (k : Kept P) {w : EventWord} (hs : P s) (h : runWord w s = .next t) :
    P t := by
  obtain ⟨i, -, hi⟩ | ⟨-, rfl⟩ := runWord_eq_next h
  · exact k.exec i s t hs hi
  · exact k.respond s .illegal 0x00 hs

theorem Kept.deliverCmd (k : Kept P) {cmd : Option EventWord} (hs : P s)
    (h : deliverCmd cmd s = .next t) : P t := by
  cases cmd with
  | none =>
    simp only [Machine.deliverCmd, Host.Outcome.next.injEq] at h
    exact h ▸ hs
  | some w => exact k.runWord hs h

/-- A clock edge keeps what every event keeps and reset establishes. -/
theorem Kept.clockEdge (k : Kept P) (hr : ∀ s : State, P s.blockReset) {p : Pins} (hs : P s)
    (h : clockEdge p s = .next t) : P t := by
  obtain ⟨-, rfl⟩ | ⟨-, s1, s2, s3, h1, h2, h3, h4⟩ := clockEdge_parts h
  · exact hr s
  · exact k.deliverCmd (k.deliverRx (k.deliverWhen (k.deliverWhen (k.drop s hs) h1) h2) h3) h4

/-- A step keeps what every event keeps and reset establishes, if the queues do not enter it. -/
theorem Kept.step (k : Kept P) (hr : ∀ s : State, P s.blockReset) (ha : ∀ s : State, P s → P s.advance)
    (hs : P s) (h : step s = .next t) : P t :=
  k.clockEdge hr (ha s hs) h

/-- A sequence of events keeps what every event keeps. -/
theorem Kept.deliverAll (k : Kept P) {es : List Event} (hs : P s)
    (h : deliverAll es s = .next t) : P t := by
  induction es generalizing s with
  | nil =>
    simp only [Machine.deliverAll, Host.Outcome.next.injEq] at h
    exact h ▸ hs
  | cons e es ih =>
    obtain ⟨u, hu, h⟩ := andThen_eq_next h
    exact ih (k.deliver hs hu) h

/-! ### Cycles without reset, READID and CONFIG -/

/-- A property that neither reads the response registers nor is broken by an event other than READID and CONFIG. -/
structure KeptQuietly (P : State → Prop) : Prop where
  drop : ∀ s, P s → P s.dropResponse
  respond : ∀ s st d, P s → P (s.respond st d)
  keep : ∀ old s, P s → P (State.keepResponse old s)
  exec : ∀ i s t, endsCycle i = false → P s → exec i s = .next t → P t

theorem KeptQuietly.deliverWhen (k : KeptQuietly P) {on : Bool} {p : Port} {i : Instr}
    (hi : endsCycle i = false) (hs : P s) (h : deliverWhen on p i s = .next t) : P t := by
  unfold Machine.deliverWhen at h
  split at h
  · obtain ⟨u, hu, rfl | rfl⟩ := deliver_eq_next h
    · exact k.exec i s _ hi hs hu
    · exact k.keep s u (k.exec i s u hi hs hu)
  · simp only [Host.Outcome.next.injEq] at h; exact h ▸ hs

theorem KeptQuietly.deliverRx (k : KeptQuietly P) {ready : Bool} {rx : Option Byte} (hs : P s)
    (h : deliverRx ready rx s = .next t) : P t := by
  cases rx with
  | none =>
    simp only [Machine.deliverRx, Host.Outcome.next.injEq] at h
    exact h ▸ hs
  | some b => exact k.deliverWhen rfl hs h

/-- A step that neither resets, reads nor reconfigures keeps what every event but READID and CONFIG keeps, up to the command
of the cycle, and with it. -/
theorem KeptQuietly.step_parts (k : KeptQuietly P) (hs : P s.advance) (he : s.cycleEnds = false)
    (h : step s = .next t) : P t ∧ ∃ u, P u ∧ deliverCmd s.pins.cmd u = .next t := by
  simp only [State.cycleEnds, Bool.or_eq_false_iff] at he
  obtain ⟨hr, -⟩ | ⟨-, s1, s2, s3, h1, h2, h3, h4⟩ := clockEdge_parts h
  · simp [he.1] at hr
  · have q : P s3 := k.deliverRx (k.deliverWhen rfl (k.deliverWhen rfl (k.drop _ hs) h1) h2) h3
    refine ⟨?_, s3, q, h4⟩
    cases hc : s.pins.cmd with
    | none =>
      simp only [hc, deliverCmd, Host.Outcome.next.injEq] at h4
      exact h4 ▸ q
    | some w =>
      rw [hc] at h4
      obtain ⟨i, hd, hi⟩ | ⟨-, rfl⟩ := runWord_eq_next h4
      · exact k.exec i s3 t (by simpa [hc, hd] using he.2) q hi
      · exact k.respond s3 .illegal 0x00 q

/-! ### Cycles in which one agent alone presents something -/

theorem pins_host {cs : List Cycle} {w : EventWord} {ws : List EventWord}
    (hs : s.schedule = { rst := false, callback := false, transport := false, host := true } :: cs)
    (hw : s.host = w :: ws) : s.pins = { Pins.idle with cmd := some w } := by
  simp [State.pins, State.cycle, hs, hw, Pins.idle]

theorem advance_host {cs : List Cycle} {w : EventWord} {ws : List EventWord}
    (hs : s.schedule = { rst := false, callback := false, transport := false, host := true } :: cs)
    (hw : s.host = w :: ws) : s.advance = { s with schedule := cs, host := ws } := by
  simp [State.advance, State.cycle, hs, hw]

theorem pins_transport {cs : List Cycle} {b : Byte} {bs : List Byte}
    (hs : s.schedule = { rst := false, callback := false, transport := true, host := false } :: cs)
    (hb : s.transport = b :: bs) : s.pins = { Pins.idle with rx := some b } := by
  simp [State.pins, State.cycle, hs, hb, Pins.idle]

theorem advance_transport {cs : List Cycle} {b : Byte} {bs : List Byte}
    (hs : s.schedule = { rst := false, callback := false, transport := true, host := false } :: cs)
    (hb : s.transport = b :: bs) :
    s.advance = { s with schedule := cs, transport := if s.rxReady false then bs else b :: bs } := by
  simp [State.advance, State.cycle, hs, hb]

theorem pins_callback {cs : List Cycle} {p : Pulse} {ps : List Pulse}
    (hs : s.schedule = { rst := false, callback := true, transport := false, host := false } :: cs)
    (hp : s.callback = p :: ps) : s.pins = { Pins.idle with d0 := p.onD0, d1 := p.onD1 } := by
  simp [State.pins, State.cycle, hs, hp, Pins.idle]

theorem advance_callback {cs : List Cycle} {p : Pulse} {ps : List Pulse}
    (hs : s.schedule = { rst := false, callback := true, transport := false, host := false } :: cs)
    (hp : s.callback = p :: ps) : s.advance = { s with schedule := cs, callback := ps } := by
  simp [State.advance, State.cycle, hs, hp]

/-! ### Every part ends in a next state -/

theorem deliver_total (p : Port) (i : Instr) (s : State) : ∃ t, deliver p i s = .next t := by
  obtain ⟨u, hu⟩ := exec_total i s
  cases p
  case cmd => exact ⟨u, hu⟩
  all_goals exact ⟨State.keepResponse s u, by simp [deliver, hu]⟩

theorem deliverAll_total (es : List Event) (s : State) : ∃ t, deliverAll es s = .next t := by
  induction es generalizing s with
  | nil => exact ⟨s, rfl⟩
  | cons e es ih =>
    obtain ⟨u, hu⟩ := deliver_total e.port e.instr s
    obtain ⟨t, ht⟩ := ih u
    exact ⟨t, by simp [deliverAll, hu, ht]⟩

theorem deliverAll_append (es fs : List Event) (s : State) :
    deliverAll (es ++ fs) s = andThen (deliverAll es s) (deliverAll fs) := by
  induction es generalizing s with
  | nil => rfl
  | cons e es ih =>
    obtain ⟨u, hu⟩ := deliver_total e.port e.instr s
    simp [deliverAll, hu, ih]

theorem deliverWhen_total (on : Bool) (p : Port) (i : Instr) (s : State) :
    ∃ t, deliverWhen on p i s = .next t := by
  unfold deliverWhen
  split
  · exact deliver_total p i s
  · exact ⟨s, rfl⟩

theorem deliverRx_total (ready : Bool) (rx : Option Byte) (s : State) :
    ∃ t, deliverRx ready rx s = .next t := by
  cases rx with
  | none => exact ⟨s, rfl⟩
  | some b => exact deliverWhen_total ready .rx (.uartByte b) s

theorem deliverCmd_total (cmd : Option EventWord) (s : State) :
    ∃ t, deliverCmd cmd s = .next t := by
  cases cmd with
  | none => exact ⟨s, rfl⟩
  | some w =>
    simp only [deliverCmd, runWord]
    split
    · exact exec_total _ s
    · exact ⟨_, rfl⟩

/-! ### The queues -/

@[simp] theorem advance_cfg (s : State) : s.advance.cfg = s.cfg := rfl
@[simp] theorem advance_ustate (s : State) : s.advance.ustate = s.ustate := rfl
@[simp] theorem advance_ucount (s : State) : s.advance.ucount = s.ucount := rfl
@[simp] theorem advance_ubuf (s : State) : s.advance.ubuf = s.ubuf := rfl
@[simp] theorem advance_wcount (s : State) : s.advance.wcount = s.wcount := rfl
@[simp] theorem advance_wbuf (s : State) : s.advance.wbuf = s.wbuf := rfl
@[simp] theorem advance_tr (s : State) : s.advance.tr = s.tr := rfl
@[simp] theorem advance_available (s : State) : s.advance.available = s.available := rfl
@[simp] theorem advance_ro (s : State) : s.advance.ro = s.ro := rfl
@[simp] theorem advance_respValid (s : State) : s.advance.respValid = s.respValid := rfl
@[simp] theorem advance_respStatus (s : State) : s.advance.respStatus = s.respStatus := rfl
@[simp] theorem advance_respData (s : State) : s.advance.respData = s.respData := rfl
@[simp] theorem advance_schedule (s : State) : s.advance.schedule = s.schedule.tail := rfl

end Sys2Proof.Machine
end

