-- ==== Sys2Proof/Laws/PerInstr.lean ====
section
/-! SUPPORT. Statements made of each event as syntax, one lemma for each constructor of Instr. -/

namespace Sys2Proof.Laws.EncodesLegal

/-- The word of an event is none of the words R74 calls illegal. -/
def Statement (i : Instr) : Prop := (encode i).legal = true

theorem nop : Statement .nop := rfl

theorem uartByte (b : Byte) : Statement (.uartByte b) := by
  show EventWord.legal (0x1#4 ++ b) = true
  revert b
  decide

theorem wbit0 : Statement .wbit0 := rfl

theorem wbit1 : Statement .wbit1 := rfl

theorem poll : Statement .poll := rfl

theorem readid : Statement .readid := rfl

theorem config (mode : Mode) (len : BitVec 7) : Statement (.config mode len) := by
  show EventWord.legal (0x6#4 ++ (encodeMode mode ++ len)) = true
  cases mode <;> revert len <;> decide

theorem hexdec (c : Byte) : Statement (.hexdec c) := by
  show EventWord.legal (0x7#4 ++ c) = true
  revert c
  decide

end Sys2Proof.Laws.EncodesLegal
end

