-- ==== Sys2Proof/Laws/Records.lean ====
section
/-! SUPPORT. What the payload's fields are, character by character, and when a UART record is valid. -/

namespace Sys2Proof.Machine

/-- The characters of a payload field are the payload's own, at the field's places. -/
theorem mem_chars {buf : Vector Byte 12} {start n : Nat} {c : Byte}
    (h : c ∈ chars buf start n) :
    ∃ j, ∃ hj : j < 12, start ≤ j ∧ j < start + n ∧ buf[j] = c := by
  obtain ⟨k, hk, rfl⟩ := List.mem_iff_getElem.mp h
  simp only [chars, List.length_take, List.length_drop, Vector.length_toList] at hk
  exact ⟨start + k, by omega, by omega, by omega, by simp [chars]⟩

theorem getElem_mem_chars (buf : Vector Byte 12) (start n j : Nat) (hj : j < 12)
    (h1 : start ≤ j) (h2 : j < start + n) : buf[j] ∈ chars buf start n := by
  refine List.mem_iff_getElem.mpr ⟨j - start, ?_, ?_⟩
  · simp only [chars, List.length_take, List.length_drop, Vector.length_toList]
    omega
  · simp [chars, Nat.add_sub_cancel' h1]

/-- Two payloads that agree on a field's places have the same field. -/
theorem chars_congr (a b : Vector Byte 12) (start n : Nat)
    (h : ∀ j (hj : j < 12), start ≤ j → j < start + n → a[j] = b[j]) :
    chars a start n = chars b start n := by
  apply List.ext_getElem
  · simp [chars]
  · intro k h1 h2
    simp only [chars, List.length_take, List.length_drop, Vector.length_toList] at h1
    simpa [chars] using h (start + k) (by omega) (by omega) (by omega)

/-- The declared checksum is characters 10 and 11 (R83). -/
theorem cksField_eq (buf : Vector Byte 12) : cksField buf = hexField [buf[10], buf[11]] := by
  unfold cksField
  congr 1
  apply List.ext_getElem
  · simp [chars, Config.mfrChars, Config.idChars, Config.cksChars]
  · intro n h1 h2
    have h3 : n < 2 := h2
    obtain rfl | rfl : n = 0 ∨ n = 1 := by omega
    · simp [chars, Config.mfrChars, Config.idChars]
    · simp [chars, Config.mfrChars, Config.idChars]

/-- The checksum is the exclusive-OR of the list of the five pairs (R107). -/
theorem uartChecksum_eq_foldl (buf : Vector Byte 12) :
    uartChecksum buf = ((List.range 5).map (pairField buf)).foldl (· ^^^ ·) 0x00 := by
  unfold uartChecksum
  rw [List.foldl_map]

/-- The checksum reads the first ten characters alone (R107). -/
theorem uartChecksum_congr (a b : Vector Byte 12)
    (h : ∀ j (hj : j < 12), j < 10 → a[j] = b[j]) : uartChecksum a = uartChecksum b := by
  rw [uartChecksum_eq_foldl, uartChecksum_eq_foldl]
  congr 1
  refine List.map_congr_left fun j hj => ?_
  have := List.mem_range.mp hj
  unfold pairField
  rw [chars_congr a b (2 * j) 2 fun k hk _ h2 => h k hk (by omega)]

/-- A UART record is valid exactly when the checksums agree and all twelve characters are hex digits (R104). -/
theorem uartValid_iff (buf : Vector Byte 12) :
    uartValid buf = true ↔
      uartChecksum buf = BitVec.ofNat 8 (cksField buf).1 ∧
        ∀ j (h : j < 12), (hexNibble buf[j]).2 = true := by
  simp only [uartValid, Bool.and_eq_true, beq_iff_eq, mfrField, idField, cksField,
    hexField_ok_iff]
  constructor
  · rintro ⟨⟨⟨h1, h2⟩, h3⟩, h4⟩
    refine ⟨h1, fun j hj => ?_⟩
    by_cases h5 : j < 4
    · exact h2 _ (getElem_mem_chars buf 0 4 j hj (by omega) (by omega))
    · by_cases h6 : j < 10
      · exact h3 _ (getElem_mem_chars buf 4 6 j hj (by omega) (by omega))
      · exact h4 _ (getElem_mem_chars buf 10 2 j hj (by omega) (by omega))
  · rintro ⟨h1, h2⟩
    have hall : ∀ start n, ∀ c ∈ chars buf start n, (hexNibble c).2 = true := by
      intro start n c hc
      obtain ⟨j, hj, -, -, rfl⟩ := mem_chars hc
      exact h2 j hj
    exact ⟨⟨⟨h1, hall _ _⟩, hall _ _⟩, hall _ _⟩

end Sys2Proof.Machine
end

