-- ==== Sys2Proof/Laws/Sequences.lean ====
section
/-! SUPPORT. What a sequence of bytes on `rx` and a sequence of bits on `d0_evt` and `d1_evt` leave in the buffers. -/

namespace Sys2Proof.Machine

/-- A state whose response registers already stand as in `old` is its own `keepResponse`. -/
theorem keepResponse_eq_self {old s : State} (h1 : s.respValid = old.respValid)
    (h2 : s.respStatus = old.respStatus) (h3 : s.respData = old.respData) :
    State.keepResponse old s = s := by
  simp only [State.keepResponse, ← h1, ← h2, ← h3]

/-- Accepting a byte does not touch the response registers or the queues. -/
theorem acceptByte_outside (b : Byte) (s : State) :
    (s.acceptByte b).respValid = s.respValid ∧ (s.acceptByte b).respStatus = s.respStatus ∧
    (s.acceptByte b).respData = s.respData ∧ (s.acceptByte b).cfg = s.cfg ∧
    (s.acceptByte b).transport = s.transport ∧ (s.acceptByte b).callback = s.callback ∧
    (s.acceptByte b).host = s.host ∧ (s.acceptByte b).schedule = s.schedule := by
  obtain ⟨-, h⟩ | ⟨-, -, h⟩ | ⟨-, -, -, h⟩ | ⟨-, -, -, -, h⟩ | ⟨-, -, h⟩ :=
    acceptByte_cases b s <;> simp [h]

/-- A byte that `rx` delivers to a UART block without a pending record is accepted, and nothing else happens. -/
theorem deliver_rx_accepted (b : Byte) (s : State) (h : s.cfg.configured = true)
    (hm : s.cfg.mode = .uart) (ha : s.available = false) :
    deliver .rx (.uartByte b) s = .next (s.acceptByte b) := by
  obtain ⟨h1, h2, h3, -⟩ := acceptByte_outside b s
  simp only [deliver, exec_uartByte_accepted b s h hm ha, andThen_next]
  rw [show State.keepResponse s ((s.acceptByte b).respond .ok (bitData (finalizesFrame b s))) =
    State.keepResponse s (s.acceptByte b) from rfl, keepResponse_eq_self h1 h2 h3]

/-- The detector READING with some characters captured. -/
def State.captured (s : State) (cs : List Byte) : State :=
  { s with
    ustate := .reading, ucount := BitVec.ofNat 4 cs.length
    ubuf := Vector.ofFn fun i => cs.getD i 0x00, tr := TagRecord.zero }

theorem captured_count (s : State) (cs : List Byte) (h : cs.length ≤ 12) :
    (s.captured cs).ucount.toNat = cs.length := by
  simp only [State.captured, BitVec.toNat_ofNat]
  omega

theorem startFrame_eq_captured (s : State) : s.startFrame = s.captured [] := by
  have : zeroBytes = Vector.ofFn fun i : Fin 12 => ([] : List Byte).getD i 0x00 := by decide
  simp [State.startFrame, State.captured, this]

/-- One more character. -/
theorem captured_acceptByte (s : State) (cs : List Byte) (c : Byte) (hl : cs.length < 12)
    (h2 : c ≠ 0x02) (h3 : c ≠ 0x03) :
    (s.captured cs).acceptByte c = s.captured (cs ++ [c]) := by
  have e := captured_count s cs (by omega)
  rw [acceptByte_payload c _ h2 h3 rfl (by rw [e]; exact hl)]
  have hb : (s.captured cs).ubuf.setIfInBounds (s.captured cs).ucount.toNat c =
      Vector.ofFn fun i : Fin 12 => (cs ++ [c]).getD i 0x00 := by
    apply Vector.ext
    intro j hj
    rw [Vector.getElem_setIfInBounds hj, e]
    simp only [State.captured, Vector.getElem_ofFn, List.getD_eq_getElem?_getD]
    split
    · next hx => subst hx; simp
    · next hx =>
      by_cases hlt : j < cs.length
      · rw [List.getElem?_append_left hlt]
      · rw [List.getElem?_eq_none (by omega),
          List.getElem?_eq_none (by simp only [List.length_append, List.length_singleton]; omega)]
  unfold State.pushByte
  rw [hb]
  simp [State.captured, BitVec.ofNat_add]

theorem bytesOf_append (as bs : List Byte) : bytesOf (as ++ bs) = bytesOf as ++ bytesOf bs := by
  simp [bytesOf]

theorem deliverAll_bytesOf_cons (b : Byte) (bs : List Byte) (s : State)
    (h : s.cfg.configured = true) (hm : s.cfg.mode = .uart) (ha : s.available = false) :
    deliverAll (bytesOf (b :: bs)) s = deliverAll (bytesOf bs) (s.acceptByte b) := by
  have hd := deliver_rx_accepted b s h hm ha
  show andThen (deliver .rx (.uartByte b) s) (deliverAll (bytesOf bs)) = _
  rw [hd, andThen_next]

/-- Up to twelve characters that are no markers are captured in order (R103). -/
theorem deliverAll_captured (s : State) (h : s.cfg.configured = true) (hm : s.cfg.mode = .uart)
    (ha : s.available = false) (cs pre : List Byte) (hl : pre.length + cs.length ≤ 12)
    (hc : ∀ c ∈ cs, c ≠ 0x02 ∧ c ≠ 0x03) :
    deliverAll (bytesOf cs) (s.captured pre) = .next (s.captured (pre ++ cs)) := by
  induction cs generalizing pre with
  | nil => simp [bytesOf, deliverAll]
  | cons c cs ih =>
    simp only [List.length_cons] at hl
    obtain ⟨h2, h3⟩ := hc c (List.mem_cons_self ..)
    rw [deliverAll_bytesOf_cons c cs (s.captured pre) h hm ha,
      captured_acceptByte s pre c (by omega) h2 h3,
      ih (pre ++ [c]) (by simp only [List.length_append, List.length_singleton]; omega)
        fun d hd => hc d (List.mem_cons_of_mem _ hd)]
    simp

/-- Bytes other than the start marker are ignored in IDLE (R105). -/
theorem deliverAll_idle (s : State) (h : s.cfg.configured = true) (hm : s.cfg.mode = .uart)
    (ha : s.available = false) (hi : s.ustate = .idle) (cs : List Byte)
    (hc : ∀ c ∈ cs, c ≠ 0x02) : deliverAll (bytesOf cs) s = .next s := by
  induction cs with
  | nil => rfl
  | cons c cs ih =>
    rw [deliverAll_bytesOf_cons c cs s h hm ha,
      acceptByte_idle c s (hc c (List.mem_cons_self ..)) hi]
    exact ih fun d hd => hc d (List.mem_cons_of_mem _ hd)

/-- A hex digit written is read back, and is no marker. -/
theorem hexNibble_hexChar (v : BitVec 4) : hexNibble (hexChar v) = (v, true) := by
  revert v
  decide

theorem hexChar_ne_marker (v : BitVec 4) : hexChar v ≠ 0x02 ∧ hexChar v ≠ 0x03 := by
  revert v
  decide

/-- A byte written as two digits is read back. -/
theorem hexField_hexPair (b : Byte) : BitVec.ofNat 8 (hexField (hexPair b)).1 = b := by
  revert b
  decide

/-! ### Bits -/

/-- A bit that its line delivers to a Wiegand block with room is recorded, and nothing else happens. -/
theorem deliver_bit_recorded (v : Bool) (s : State) (h : s.cfg.configured = true)
    (hm : s.cfg.mode = .wiegand) (hc : s.wcount.toNat < 100) :
    deliver (onDefaultPort (if v then .wbit1 else .wbit0)).port
      (onDefaultPort (if v then .wbit1 else .wbit0)).instr s = .next (s.pushBit v) := by
  cases v <;>
    simp only [Bool.false_eq_true, if_false, if_true, onDefaultPort, deliver, exec, execWbit0,
      execWbit1, wbit_recorded _ s h hm hc, andThen_next] <;> rfl

/-- Delivered bits stand in the buffer in arrival order after those already there; no earlier bit changes. -/
theorem deliverAll_wbits (bits : List Bool) (s : State) (h : s.cfg.configured = true)
    (hm : s.cfg.mode = .wiegand) (hc : s.wcount.toNat + bits.length ≤ 100) :
    ∃ t, deliverAll (wbits bits) s = .next t ∧ t.cfg = s.cfg ∧
      t.wcount.toNat = s.wcount.toNat + bits.length ∧
      (∀ j, j < s.wcount.toNat → bitAt t.wbuf j = bitAt s.wbuf j) ∧
      (∀ j (hj : j < bits.length), bitAt t.wbuf (s.wcount.toNat + j) = (bits[j]).toNat) := by
  induction bits generalizing s with
  | nil => exact ⟨s, rfl, rfl, rfl, fun _ _ => rfl, fun j hj => absurd hj (Nat.not_lt_zero j)⟩
  | cons v bits ih =>
    simp only [List.length_cons] at hc
    have hw : s.wcount.toNat < 100 := by omega
    have hs := wcount_succ s hw
    obtain ⟨t, e1, e2, e3, e4, e5⟩ :=
      ih (s.pushBit v) h hm (by rw [State.pushBit_wcount, hs]; omega)
    rw [State.pushBit_wcount, hs] at e3 e4 e5
    refine ⟨t, ?_, e2, by simp only [List.length_cons]; omega, ?_, ?_⟩
    · simp only [wbits, List.map_cons, deliverAll]
      rw [deliver_bit_recorded v s h hm hw, andThen_next]
      exact e1
    · intro j hj
      rw [e4 j (by omega), State.pushBit_wbuf, bitAt_setIfInBounds_ne _ _ _ _ (by omega)]
    · intro j hj
      cases j with
      | zero =>
        rw [Nat.add_zero, e4 _ (by omega), State.pushBit_wbuf, setIfInBounds_eq_set _ _ _ hw,
          bitAt_eq _ _ hw]
        simp
      | succ j =>
        have := e5 j (by simpa using hj)
        rw [show s.wcount.toNat + (j + 1) = s.wcount.toNat + 1 + j by omega, this]
        simp

theorem bitsValue_snoc (bits : List Bool) (b : Bool) :
    bitsValue (bits ++ [b]) = 2 * bitsValue bits + b.toNat := by
  simp [bitsValue, List.foldl_append]

theorem bitsValue_lt (bits : List Bool) : bitsValue bits < 2 ^ bits.length := by
  induction bits using List.reverseRecOn with
  | nil => simp [bitsValue]
  | append_singleton bits b ih =>
    rw [bitsValue_snoc, List.length_append, List.length_singleton, Nat.pow_succ]
    have : b.toNat ≤ 1 := by cases b <;> simp
    omega

/-- A numeral is the sum of its bits at their weights, the form of `Field` (R84). -/
theorem bitsValue_eq_sum (bits : List Bool) :
    bitsValue bits =
      ((List.range bits.length).map fun i =>
        (bits.getD i false).toNat <<< (bits.length - 1 - i)).sum := by
  induction bits using List.reverseRecOn with
  | nil => rfl
  | append_singleton bits b ih =>
    rw [bitsValue_snoc, ih, List.length_append, List.length_singleton, List.range_succ,
      List.map_append, List.sum_append, ← List.sum_map_mul_left]
    congr 1
    · congr 1
      refine List.map_congr_left fun i hi => ?_
      have hlt := List.mem_range.mp hi
      simp only [List.getD_eq_getElem?_getD, List.getElem?_append_left hlt, Nat.shiftLeft_eq]
      rw [show bits.length + 1 - 1 - i = (bits.length - 1 - i) + 1 by omega, Nat.pow_succ]
      ring
    · simp

/-- `Field` reads the slice of the delivered bits as a numeral. -/
theorem field_eq_bitsValue (wbuf : Vector Bool 100) (bits : List Bool)
    (hb : ∀ j (hj : j < bits.length), bitAt wbuf j = (bits[j]).toNat) (start n : Nat)
    (hn : start + n ≤ bits.length) :
    field wbuf start n = BitVec.ofNat n (bitsValue ((bits.drop start).take n)) := by
  have hl : ((bits.drop start).take n).length = n := by
    simp only [List.length_take, List.length_drop]
    omega
  rw [bitsValue_eq_sum, hl]
  unfold field
  congr 2
  refine List.map_congr_left fun i hi => ?_
  have hlt := List.mem_range.mp hi
  rw [hb (start + i) (by omega), List.getD_eq_getElem?_getD, List.getElem?_take, if_pos hlt,
    List.getElem?_drop, List.getElem?_eq_getElem (by omega), Option.getD_some]

/-- A count of ones is the number of ones in the slice of the delivered bits. -/
theorem popcount_eq_sum (wbuf : Vector Bool 100) (bits : List Bool)
    (hb : ∀ j (hj : j < bits.length), bitAt wbuf j = (bits[j]).toNat) (lo hi : Nat)
    (h : hi < bits.length) :
    popcount wbuf lo hi = (((bits.drop lo).take (hi + 1 - lo)).map Bool.toNat).sum := by
  unfold popcount
  congr 1
  apply List.ext_getElem
  · simp only [List.length_map, List.length_range, List.length_take, List.length_drop]
    omega
  · intro i h1 h2
    simp only [List.length_map, List.length_range] at h1
    simp only [List.getElem_map, List.getElem_range, List.getElem_take, List.getElem_drop]
    rw [hb _ (by omega)]

/-- The exclusive-OR of bits is the parity of their number of ones. -/
theorem xorBits_eq_parity (bits : List Bool) :
    xorBits bits = ((bits.map Bool.toNat).sum % 2 == 1) := by
  induction bits using List.reverseRecOn with
  | nil => rfl
  | append_singleton bits b ih =>
    have hs : xorBits (bits ++ [b]) = xor (xorBits bits) b := by
      simp [xorBits, List.foldl_append]
    rw [hs, ih, List.map_append, List.sum_append]
    rcases Nat.mod_two_eq_zero_or_one (bits.map Bool.toNat).sum with h | h <;> cases b <;>
      simp [h, Nat.add_mod]

end Sys2Proof.Machine
end

