-- ==== Sys2Proof/Tests/Slice0.lean ====
section
/-! SUPPORT. The model's own tests. Expected values are those of spec/95_test_vectors.md (their numbers stand in the
comments) or of the rule named; the witnesses at the end show a state and operands that meet the hypotheses of each
statement of Certificates/Slice0/Obligations.lean. -/

namespace Sys2Proof.Tests

open Sys2Proof Sys2Proof.Machine

/-- The state an outcome ends in, or reset. -/
def after (o : Host.Outcome State Fault Refusal) : State :=
  match o with
  | .next s => s
  | .fault _ => State.reset
  | .refused _ => State.reset

/-- A response as it stands in the registers. -/
def response (s : State) : Bool × Status × Byte := (s.respValid, s.respStatus, s.respData)

def uartIdle : State := { State.reset with cfg := { configured := true, mode := .uart, len := 0 } }

/-- READING with some characters captured. -/
def uartReading (cs : List Byte) : State := uartIdle.captured cs

/-- W1's payload. -/
def payload : Vector Byte 12 :=
  #v[0x30, 0x32, 0x30, 0x30, 0x31, 0x41, 0x32, 0x42, 0x33, 0x43, 0x30, 0x46]

def uartHeld : State := { uartIdle with tr := uartRecord payload, available := true }

/-- A Wiegand block with some bits received. -/
def wiegand (len : BitVec 7) (bits : List Bool) : State :=
  { State.reset with
    cfg := { configured := true, mode := .wiegand, len := len }
    wcount := BitVec.ofNat 7 bits.length
    wbuf := Vector.ofFn fun i => bits.getD i false }

def bits (str : String) : List Bool := str.toList.map (· == '1')

/-- W7's bits. -/
def w7 : List Bool := bits "11010101111001101111011111"

/-- W6 row 1's bits. -/
def w6 : List Bool := bits "10101010111100000100100011010001011"

/-- A state whose coming cycle has only the given word on the command port. -/
def commanded (s : State) (w : EventWord) : State := s.presentCommand w

/-- A block in UART mode that the transport alone offers a start marker. -/
def uartOffered : State := { uartIdle with
  transport := [0x02]
  schedule := [{ rst := false, callback := false, transport := true, host := false }] }

/-- A fresh 26-bit cycle whose coming clock cycle has only the given pulse. -/
def pulsed (p : Pulse) : State := { wiegand 26 [] with
  callback := [p]
  schedule := [{ rst := false, callback := true, transport := false, host := false }] }

/-- W7's record, available, with a bit and a POLL in the coming cycle. -/
def wiegandHeld : State := { wiegand 26 w7 with
  tr := wiegandRecord 26 (wiegand 26 w7).wbuf
  available := true
  callback := [.one]
  host := [0x400]
  schedule := [{ rst := false, callback := true, transport := false, host := true }] }

/-! ### Decoding, from the encodings of R72 and opcode_table.json -/

theorem test_decode_nop : decode 0b000000000000 = some .nop := by decide
theorem test_decode_uartByte : decode 0b000110100101 = some (.uartByte 0xA5) := by decide
theorem test_decode_wbit0 : decode 0b001000000000 = some .wbit0 := by decide
theorem test_decode_wbit1 : decode 0b001100000000 = some .wbit1 := by decide
theorem test_decode_poll : decode 0b010000000000 = some .poll := by decide
theorem test_decode_readid : decode 0b010100000000 = some .readid := by decide
theorem test_decode_config : decode 0b011010100011 = some (.config .wiegand 35) := by decide
theorem test_decode_hexdec : decode 0b011101000111 = some (.hexdec 0x47) := by decide

/-- F17, F18, F19. -/
theorem test_decode_illegal :
    [0x001, 0x0FF, 0x201, 0x380, 0x401, 0x5FF, 0x800, 0x9AB, 0xFFF].map decode =
      List.replicate 9 none := by decide

/-- The rows of opcode_table.json: match, mask, and the event of the word `match`. -/
def table : List (EventWord × EventWord × Instr) :=
  [(0x000, 0xFFF, .nop), (0x100, 0xF00, .uartByte 0), (0x200, 0xFFF, .wbit0), (0x300, 0xFFF, .wbit1),
    (0x400, 0xFFF, .poll), (0x500, 0xFFF, .readid), (0x600, 0xF00, .config .uart 0), (0x700, 0xF00, .hexdec 0)]

theorem test_table_rows_decode : table.map (fun r => decode r.1) = table.map fun r => some r.2.2 := by
  decide

theorem test_table_rows_disjoint :
    table.Pairwise fun a b => (a.1 ^^^ b.1) &&& a.2.1 &&& b.2.1 ≠ 0 := by decide

/-- A word decodes exactly when a row of the table matches it. -/
theorem test_table_is_decoder :
    ∀ w : EventWord, (decode w).isSome = table.any fun r => w &&& r.2.1 == r.1 := by decide +kernel

theorem test_decodeTableWord_whole_bytes : decodeTableWord 16 0x069A = some (.config .wiegand 26) := by
  decide

/-! ### The checks of WellFormed refuse -/

/-- R74 (a). -/
theorem test_illegal_reserved_op : EventWord.legal 0x800 = false := by decide
/-- R74 (b). -/
theorem test_illegal_argument : EventWord.legal 0x401 = false := by decide
/-- R78: the transport's port carries no POLL. -/
theorem test_rx_carries_no_poll : Event.wellFormed { port := .rx, instr := .poll } = false := by decide
/-- R78: a bit line carries its own bit alone. -/
theorem test_d0_carries_no_wbit1 : Event.wellFormed { port := .d0, instr := .wbit1 } = false := by decide
theorem test_d1_carries_no_wbit0 : Event.wellFormed { port := .d1, instr := .wbit0 } = false := by decide
theorem test_every_event_well_formed : Instr.wellFormed (.config .wiegand 127) = true := by decide

/-! ### Events -/

/-- F1. -/
theorem test_nop : response (after (exec .nop State.reset)) = (true, .ok, 0x00) := by decide

/-- W1: the end marker of a valid frame. -/
theorem test_uartByte_finalizes :
    let t := after (exec (.uartByte 0x03) (uartReading payload.toList))
    (t.tr.mfr, t.tr.id, t.tr.cks, t.tr.valid) = (0x0200, 0x1A2B3C, 0x0F, true) ∧
      (t.available, response t) = (true, true, .ok, 0x01) := by decide

/-- U11: a character that is no hex digit, with checksums that agree. -/
theorem test_uartByte_non_hex :
    let t := after (exec (.uartByte 0x03) (uartReading (ascii "0G021A2B3C0F")))
    (t.tr.mfr, t.tr.cks, t.tr.valid, t.available) = (0x0002, 0x0F, false, true) := by decide

/-- G2. -/
theorem test_wbit0 :
    let t := after (exec .wbit0 (wiegand 26 [true, true, true]))
    (t.wcount, t.wbuf[3], response t) = (4, false, true, .ok, 0x00) := by decide

/-- G1. -/
theorem test_wbit1 :
    let t := after (exec .wbit1 (wiegand 26 []))
    (t.wcount, t.wbuf[0], response t) = (1, true, true, .ok, 0x00) := by decide

/-- G10: the 101st bit. -/
theorem test_wbit1_dropped :
    let s := wiegand 26 (List.replicate 100 false)
    let t := after (exec .wbit1 s)
    (t.wcount, t.wbuf == s.wbuf, response t) = (100, true, true, .ok, 0x00) := by decide

/-- W7. -/
theorem test_poll_26 :
    let t := after (exec .poll (wiegand 26 w7))
    (t.tr.mfr, t.tr.id, t.tr.valid, t.wcount, response t) =
      (0x0000, 0xABCDEF, true, 26, true, .ok, 0x01) := by decide

/-- W6, G15. -/
theorem test_poll_35 :
    let t := after (exec .poll (wiegand 35 w6))
    (t.tr.mfr, t.tr.id, t.tr.valid, response t) = (0x0ABC, 0x012345, true, true, .ok, 0x01) := by
  decide

/-- P1 event 19. -/
theorem test_readid :
    let t := after (exec .readid uartHeld)
    (t.ro.mfr, t.ro.id, t.ro.raw, t.tr) = (0x0200, 0x1A2B3C, payload, TagRecord.zero) ∧
      (t.available, response t) = (false, true, .ok, 0x01) := by decide

/-- F5: the length bits of CONFIG UART are ignored. -/
theorem test_config_uart :
    let t := after (exec (.config .uart 127) uartHeld)
    (t.cfg, t.available, t.tr, response t) =
      ({ configured := true, mode := .uart, len := 0 }, false, TagRecord.zero, true, .ok, 0x00) := by
  decide

/-- F10. -/
theorem test_config_unsupported_length :
    let t := after (exec (.config .wiegand 34) uartIdle)
    (t.cfg, response t) =
      ({ configured := false, mode := .uart, len := 0 }, true, .cfgError, 0x00) := by decide

/-- F13, F15. -/
theorem test_hexdec :
    response (after (exec (.hexdec 0x61) State.reset)) = (true, .ok, 0x0A) := by decide

/-- F16. -/
theorem test_hexdec_invalid :
    response (after (exec (.hexdec 0x47) State.reset)) = (true, .hexInvalid, 0x00) := by decide

/-! ### Cycles -/

/-- X2: the response of 0x746. -/
theorem test_step_response :
    response (after (step (State.reset.withFetchWord 16 0x746))) = (true, .ok, 0x0F) := by decide

/-- G13: the bit is applied before the POLL of the same cycle. -/
theorem test_step_bit_before_poll :
    let s := { wiegand 26 (List.replicate 25 false) with
      callback := [.one], host := [0x400]
      schedule := [{ rst := false, callback := true, transport := false, host := true }] }
    let t := after (step s)
    (t.wcount, t.tr.id, t.tr.valid, response t) = (26, 0, true, true, .ok, 0x01) := by decide

/-- G14: both lines in one cycle, the 0 first. -/
theorem test_step_both_lines :
    let s := { wiegand 26 (List.replicate 24 false) with
      callback := [.both]
      schedule := [{ rst := false, callback := true, transport := false, host := false }] }
    let t := after (step s)
    (t.wbuf[24], t.wbuf[25], t.wcount, t.respValid) = (false, true, 26, false) := by decide

/-- X3, P1 event 18: a byte offered while a record is available stays with the transport. -/
theorem test_step_byte_held :
    let s := { uartHeld with
      transport := [0x02]
      schedule := [{ rst := false, callback := false, transport := true, host := false }] }
    ((after (step s)).transport, (s.outputs false).rxReady, (s.outputs false).avail) =
      ([0x02], false, true) := by decide

/-- X4. -/
theorem test_outputs :
    let o := (after (exec .readid uartHeld)).outputs false
    (o.recRaw.extractLsb' 0 8, o.recRaw.extractLsb' 8 8, o.recRaw.extractLsb' 88 8, o.rxReady) =
      (0x30, 0x32, 0x46, true) := by decide

/-! ### Witnesses: states and operands that meet the hypotheses of the statements -/

theorem uartIdle_inv : uartIdle.Inv := by constructor <;> decide
theorem uartHeld_inv : uartHeld.Inv := by constructor <;> decide
theorem uartReading_inv : (uartReading (ascii "0200")).Inv := by constructor <;> decide
theorem wiegand_complete_inv : (wiegand 26 w7).Inv := by constructor <;> decide

theorem witness_EncodeDecode : decode 0x6FF = some (.config .wiegand 127) := by decide

theorem witness_StepRunsPresentedEvent :
    let s := commanded State.reset 0x746
    s.schedule = { rst := false, callback := false, transport := false, host := true } :: [] ∧
      s.host = 0x746 :: [] ∧ decode 0x746 = some (.hexdec 0x46) ∧
      Instr.wellFormed (.hexdec 0x46) = true := by decide

/-- The transport's clauses: `rx_ready` 1 and 0. -/
theorem witness_StepRunsPresentedEvent_transport :
    uartOffered.schedule = { rst := false, callback := false, transport := true, host := false } :: [] ∧
      uartOffered.transport = 0x02 :: [] ∧ uartOffered.rxReady false = true ∧
      { uartOffered with available := true }.rxReady false = false := by decide

/-- The callback context's clauses: each pulse. -/
theorem witness_StepRunsPresentedEvent_callback :
    ∀ p ∈ [Pulse.zero, Pulse.one, Pulse.both],
      (pulsed p).schedule = { rst := false, callback := true, transport := false, host := false } :: [] ∧
        (pulsed p).callback = p :: [] := by decide

theorem witness_IllegalWordAnswered :
    0x8 ≤ EventWord.op 0x800 ∧ EventWord.op 0x401 ∈ [0x0, 0x2, 0x3, 0x4, 0x5] ∧ EventWord.arg 0x401 ≠ 0x00 ∧
      EventWord.op 0x0FF ∈ [0x0, 0x2, 0x3, 0x4, 0x5] ∧ EventWord.arg 0x0FF ≠ 0x00 := by decide

theorem witness_RstEdgeResetsBlock :
    let c : Cycle := { rst := true, callback := true, transport := true, host := true }
    let s := { uartHeld with transport := [0x02], callback := [.one], host := [0x500], schedule := [c] }
    s.schedule = c :: [] ∧ c.rst = true := by decide

theorem witness_ResponseValidExactlyAfterCommand :
    (∃ t, step (commanded State.reset 0x000) = .next t) ∧ (∃ t, step uartIdle = .next t) :=
  ⟨⟨_, rfl⟩, ⟨_, rfl⟩⟩

theorem witness_SameCycleEventsInPortOrder :
    ({ rst := false, d0 := true, d1 := true, rx := some 0x02, cmd := some 0x400 } : Pins).rst = false := by
  decide

theorem witness_RxReadyDecidesAcceptance :
    let c : Cycle := { rst := false, callback := false, transport := true, host := false }
    uartHeld.rxReady false = false ∧ uartIdle.rxReady true = false ∧ uartIdle.rxReady false = true ∧
      State.transport { uartHeld with transport := [0x02], schedule := [c] } = 0x02 :: [] ∧
      (State.pins { uartHeld with transport := [0x02], schedule := [c] }).rx = some 0x02 ∧
      (State.pins { uartIdle with transport := [0x02], schedule := [c] }).rx = some 0x02 := by decide

theorem witness_StepKeepsInvariants :
    uartIdle.Inv ∧ ∃ t, step (commanded uartIdle 0x102) = .next t := ⟨uartIdle_inv, _, rfl⟩

theorem uartReading_tails : (uartReading (ascii "0200")).TailsClear := by
  constructor <;> decide

theorem witness_StepKeepsBufferTailsClear :
    (uartReading (ascii "0200")).TailsClear ∧
      ∃ t, step (commanded (uartReading (ascii "0200")) 0x131) = .next t :=
  ⟨uartReading_tails, _, rfl⟩

theorem witness_ValidUartRecordIsCheckedHex :
    uartHeld.Inv ∧ uartHeld.cfg.mode = .uart ∧ uartHeld.tr.valid = true :=
  ⟨uartHeld_inv, by decide, by decide⟩

theorem witness_BlocksShareNothing :
    [commanded uartIdle 0x102, uartHeld][0]? = some (commanded uartIdle 0x102) ∧ (1 : Nat) ≠ 0 := by decide

theorem witness_UnconfiguredTurnsEventsAway :
    State.reset.cfg.configured = false ∧ needsConfig (.uartByte 0x02) = true ∧ needsConfig .readid = true := by
  decide

theorem witness_OnlyActiveDecoderChanges :
    uartIdle.cfg.configured = true ∧ ownerMode .wbit1 = some .wiegand ∧ uartIdle.cfg.mode ≠ .wiegand ∧
      (∃ t, exec .wbit1 (wiegand 26 []) = .next t) ∧ (∃ t, exec (.uartByte 0x02) uartIdle = .next t) :=
  ⟨rfl, rfl, by decide, ⟨_, rfl⟩, ⟨_, rfl⟩⟩

theorem witness_StatusPriority :
    EventWord.legal 0x201 = false ∧ decode 0x102 = some (.uartByte 0x02) ∧
      decode 0x69E = some (.config .wiegand 30) ∧ decode 0x746 = some (.hexdec 0x46) ∧
      (∃ t, runWord 0x102 (wiegand 26 w7) = .next t) ∧ (∃ t, runWord 0x201 State.reset = .next t) :=
  ⟨by decide, by decide, by decide, by decide, ⟨_, rfl⟩, ⟨_, rfl⟩⟩

theorem witness_NonOkChangesNoState :
    (∃ t, runWord 0x102 uartHeld = .next t ∧ t.respStatus = .busy) ∧
      (∃ t, runWord 0x69E uartHeld = .next t ∧ t.respStatus = .cfgError) :=
  ⟨⟨_, rfl, by decide⟩, ⟨_, rfl, by decide⟩⟩

theorem witness_RegistersWrittenOnlyByNamedEvents :
    (∃ t, exec .poll (wiegand 26 w7) = .next t) ∧ ∀ m l, Instr.poll ≠ .config m l :=
  ⟨⟨_, rfl⟩, fun _ _ h => Instr.noConfusion h⟩

theorem witness_CfgChangesOnlyByConfigOrReset :
    ∃ t, step (commanded uartIdle 0x69A) = .next t ∧ t.cfg ≠ uartIdle.cfg := ⟨_, rfl, by decide⟩

theorem witness_BuffersWrittenOnlyAtCounters :
    endsCycle .wbit1 = false ∧
      (∃ t, exec .wbit1 (wiegand 26 []) = .next t ∧ t.wbuf[0] ≠ (wiegand 26 []).wbuf[0]) ∧
      (∃ t, exec (.uartByte 0x31) (uartReading []) = .next t ∧ t.ucount ≠ 0 ∧
        t.ubuf[0] ≠ (uartReading []).ubuf[0]) :=
  ⟨rfl, ⟨_, rfl, by decide⟩, ⟨_, rfl, by decide, by decide⟩⟩

theorem witness_EventsLeaveAgentQueues : ∃ t, exec .readid uartHeld = .next t := ⟨_, rfl⟩

theorem witness_StartMarkerStartsFrame :
    (uartReading (ascii "0200")).cfg.configured = true ∧ (uartReading (ascii "0200")).cfg.mode = .uart ∧
      (uartReading (ascii "0200")).available = false := by decide

theorem witness_EndMarkerClosesFrame_full :
    let s := uartReading payload.toList
    s.cfg.configured = true ∧ s.cfg.mode = .uart ∧ s.available = false ∧ s.ustate = .reading ∧
      s.ucount.toNat = 12 := by decide

theorem uartReading_eleven_inv : (uartReading (ascii "02001A2B3C0")).Inv := by constructor <;> decide

theorem witness_EndMarkerClosesFrame_short :
    let s := uartReading (ascii "02001A2B3C0")
    s.cfg.configured = true ∧ s.cfg.mode = .uart ∧ s.available = false ∧ s.ustate = .reading ∧
      s.ucount.toNat < 12 ∧ s.Inv :=
  ⟨by decide, by decide, by decide, by decide, by decide, uartReading_eleven_inv⟩

theorem witness_FinalizedRecordFromCharacters :
    let s := uartReading payload.toList
    s.cfg.configured = true ∧ s.cfg.mode = .uart ∧ s.available = false ∧ s.ustate = .reading ∧
      s.ucount = 12 ∧
      s.ubuf = #v[0x30, 0x32, 0x30, 0x30, 0x31, 0x41, 0x32, 0x42, 0x33, 0x43, 0x30, 0x46] := by decide

theorem witness_PayloadByteAppendsOrAborts :
    let s := uartReading (ascii "02001A2B3C0")
    let u := uartReading payload.toList
    s.cfg.configured = true ∧ s.cfg.mode = .uart ∧ s.available = false ∧ s.ustate = .reading ∧
      s.ucount.toNat < 12 ∧ (0x00 : Byte) ≠ 0x02 ∧ (0x44 : Byte) ≠ 0x03 ∧ u.ustate = .reading ∧
      u.ucount.toNat = 12 := by decide

theorem witness_IdleByteIgnored :
    uartIdle.cfg.configured = true ∧ uartIdle.cfg.mode = .uart ∧ uartIdle.available = false ∧
      uartIdle.ustate = .idle ∧ (0x03 : Byte) ≠ 0x02 := by decide

theorem witness_ByteHeldWhileAvailable :
    uartHeld.cfg.configured = true ∧ uartHeld.cfg.mode = .uart ∧ uartHeld.available = true := by decide

/-- Each clause at the ends of its range. -/
theorem witness_HexNibbleTable :
    hexNibble 0x2F = (0, false) ∧ hexNibble 0x30 = (0, true) ∧ hexNibble 0x39 = (9, true) ∧
      hexNibble 0x3A = (0, false) ∧ hexNibble 0x40 = (0, false) ∧ hexNibble 0x41 = (10, true) ∧
      hexNibble 0x46 = (15, true) ∧ hexNibble 0x47 = (0, false) ∧ hexNibble 0x60 = (0, false) ∧
      hexNibble 0x61 = (10, true) ∧ hexNibble 0x66 = (15, true) ∧ hexNibble 0x67 = (0, false) := by
  decide

theorem witness_ChecksumIgnoresPairOrder :
    ((List.range 5).map (pairField payload)).Perm ((List.range 5).map (pairField
      #v[0x33, 0x43, 0x32, 0x42, 0x31, 0x41, 0x30, 0x30, 0x30, 0x32, 0x30, 0x46])) := by decide

theorem witness_NonHexCharacterNeverValid : (hexNibble (payload.set 11 0x0D)[11]).2 = false := by decide

theorem witness_ChangedChecksumDigitRejected :
    (uartRecord payload).valid = true ∧ 10 ≤ 11 ∧ hexNibble 0x45 ≠ hexNibble payload[11] ∧
      hexNibble 0x31 ≠ hexNibble payload[10] := by decide

theorem witness_TwelveCharacterFrameFinalizes :
    uartIdle.cfg.configured = true ∧ uartIdle.cfg.mode = .uart ∧ uartIdle.available = false ∧
      ∀ c ∈ payload.toList, c ≠ 0x02 ∧ c ≠ 0x03 := by decide

theorem witness_OtherLengthFrameNotDecoded :
    (∀ c ∈ ascii "020001A2B3C4D1F", c ≠ 0x02 ∧ c ≠ 0x03) ∧ (ascii "020001A2B3C4D1F").length ≠ 12 ∧
      ([] : List Byte).length ≠ 12 ∧ (ascii "02001A2B3C4D1").length = 13 := by decide

theorem witness_UartRoundTrip :
    uartIdle.cfg.configured = true ∧ uartIdle.cfg.mode = .uart ∧ uartIdle.available = false ∧
      payloadChars 0x0200 0x1A2B3C (xorBytes (recordBytes 0x0200 0x1A2B3C)) = payload.toList := by decide

theorem witness_BitEventRecordsOrDrops :
    State.reset.cfg.configured = false ∧ uartIdle.cfg.configured = true ∧ uartIdle.cfg.mode = .uart ∧
      (wiegand 26 (List.replicate 99 true)).cfg.configured = true ∧
      (wiegand 26 (List.replicate 99 true)).cfg.mode = .wiegand ∧
      (wiegand 26 (List.replicate 99 true)).wcount.toNat < 100 ∧
      100 ≤ (wiegand 26 (List.replicate 100 true)).wcount.toNat := by decide

theorem wiegand_tails : (wiegand 26 [true, true, true]).TailsClear := by
  refine ⟨by decide, fun j h hj => ?_⟩
  have hj : 3 ≤ j := hj
  simp [wiegand, List.getD, List.getElem?_eq_none (l := [true, true, true]) hj]

theorem witness_ZeroBitImplicitInClearedBuffer :
    (wiegand 26 [true, true, true]).TailsClear ∧
      ∃ t, exec .wbit0 (wiegand 26 [true, true, true]) = .next t := ⟨wiegand_tails, _, rfl⟩

theorem witness_FieldMostSignificantFirst : (19 : Nat) < 20 ∧ 14 + 20 ≤ 100 ∧ 80 + 20 ≤ 100 := by decide

theorem witness_OneFlippedBitFailsParity :
    parity26 (wiegand 26 w7).wbuf = true ∧ (25 : Nat) < 26 ∧ (25 : Nat) < 100 := by decide

theorem witness_ThirtyFiveBitFrameExtracted :
    (wiegand 35 []).cfg.configured = true ∧ (wiegand 35 []).cfg.mode = .wiegand ∧
      (wiegand 35 []).cfg.len = 35 ∧ (wiegand 35 []).wcount = 0 ∧ w6.length = 35 := by decide

theorem witness_TwentySixBitFrameExtracted :
    (wiegand 26 []).cfg.configured = true ∧ (wiegand 26 []).cfg.mode = .wiegand ∧
      (wiegand 26 []).cfg.len = 26 ∧ (wiegand 26 []).wcount = 0 ∧ w7.length = 26 := by decide

theorem witness_PollFinalizesOrReports :
    State.reset.cfg.configured = false ∧ (wiegand 26 w7).cfg.configured = true ∧
      (wiegand 26 w7).cfg.mode = .wiegand ∧ (wiegand 26 w7).wcount = (wiegand 26 w7).cfg.len ∧
      uartHeld.cfg.mode = .uart ∧ (wiegand 35 w7).wcount ≠ (wiegand 35 w7).cfg.len := by decide

theorem witness_PollIdempotent : ∃ t, exec .poll (wiegand 26 w7) = .next t := ⟨_, rfl⟩

theorem witness_ReadidReturnsAndClears :
    State.reset.cfg.configured = false ∧ uartHeld.cfg.configured = true ∧ uartHeld.cfg.mode = .uart ∧
      (wiegand 26 w7).cfg.configured = true ∧ (wiegand 26 w7).cfg.mode = .wiegand := by decide

theorem witness_ReadidWithNothingReturnsZeroRecord :
    (wiegand 26 w7).Inv ∧ (wiegand 26 w7).cfg.configured = true ∧ (wiegand 26 w7).available = false :=
  ⟨wiegand_complete_inv, by decide, by decide⟩

theorem witness_ReadidLeavesFreshCycle : uartHeld.Inv ∧ uartHeld.cfg.configured = true :=
  ⟨uartHeld_inv, by decide⟩

theorem witness_PollThenReadidReturnsRecord :
    (∃ t, exec .poll (wiegand 26 w7) = .next t ∧ t.respStatus = .ok ∧ t.respData = 0x01) ∧
      ∀ e ∈ [onDefaultPort .wbit1, onDefaultPort (.uartByte 0x02)],
        e.port ≠ .cmd ∧ e.wellFormed = true :=
  ⟨⟨_, rfl, by decide, by decide⟩, by decide⟩

/-- P3 after event 37, with a POLL in the coming cycle. -/
theorem witness_StarvedCycleStaysStarved :
    (commanded (wiegand 35 (w6 ++ [false])) 0x400).Starved ∧
      (commanded (wiegand 35 (w6 ++ [false])) 0x400).cycleEnds = false ∧
      (commanded (wiegand 35 (w6 ++ [false])) 0x400).pins.cmd.bind decode = some .poll ∧
      ∃ t, step (commanded (wiegand 35 (w6 ++ [false])) 0x400) = .next t :=
  ⟨⟨by decide, by decide, by decide, by decide⟩, by decide, by decide, _, rfl⟩

theorem witness_HeldRecordStays :
    (commanded uartHeld 0x102).Held ∧ (commanded uartHeld 0x102).cycleEnds = false ∧
      ∃ t, step (commanded uartHeld 0x102) = .next t :=
  ⟨⟨by decide, by decide, by decide⟩, by decide, _, rfl⟩

/-- P2 events 31 and 32, in one cycle: a bit and a POLL while a record is available. -/
theorem witness_AvailableRecordStays :
    wiegandHeld.Inv ∧ wiegandHeld.available = true ∧ wiegandHeld.cycleEnds = false ∧
      ∃ t, step wiegandHeld = .next t :=
  ⟨by constructor <;> decide, by decide, by decide, _, rfl⟩

theorem witness_ConfigResetsAndSelects :
    ((26 : BitVec 7) = 26 ∨ (26 : BitVec 7) = 35) ∧ ((35 : BitVec 7) = 26 ∨ (35 : BitVec 7) = 35) ∧
      (34 : BitVec 7) ≠ 26 ∧ (34 : BitVec 7) ≠ 35 ∧ (127 : BitVec 7) ≠ 35 := by decide

theorem witness_UnsupportedLengthLeavesUnconfigured :
    (30 : BitVec 7) ≠ 26 ∧ (30 : BitVec 7) ≠ 35 ∧
      (∀ e ∈ [onDefaultPort .wbit0, onDefaultPort (.config .wiegand 34), onDefaultPort .poll],
        ∀ m l, e.instr = .config m l → m = .wiegand ∧ l ≠ 26 ∧ l ≠ 35) ∧
      needsConfig .poll = true := by
  refine ⟨by decide, by decide, ?_, by decide⟩
  intro e he m l
  simp only [onDefaultPort, List.mem_cons, List.not_mem_nil, or_false] at he
  obtain rfl | rfl | rfl := he <;> simp +contextual [eq_comm]

theorem witness_HexdecAnswersDigit : hexNibble 0x46 = (15, true) ∧ (hexNibble 0x47).2 = false := by decide

end Sys2Proof.Tests
end

section
/-! PROOF. The events of one cycle against four cycles that present one port each (R53, R193). What makes the two agree: an
event on `d0_evt`, `d1_evt` or `rx` leaves `resp_valid` down, so the later edges have nothing to lower, and a bit event leaves
what `rx_ready` reads. -/

namespace Sys2Proof.Machine

theorem andThen_next_right (o : Host.Outcome State Fault Refusal) :
    (andThen o fun s => .next s) = o := by
  cases o <;> rfl

theorem dropResponse_eq_self {s : State} (h : s.respValid = false) : s.dropResponse = s := by
  simp only [State.dropResponse, ← h]

/-! ### An edge that presents one port -/

theorem clockEdge_d0 (on : Bool) (s : State) :
    clockEdge { Pins.idle with d0 := on } s = deliverWhen on .d0 .wbit0 s.dropResponse := by
  simp [clockEdge, Pins.idle, deliverWhen, deliverRx, deliverCmd, andThen_next_right]

theorem clockEdge_d1 (on : Bool) (s : State) :
    clockEdge { Pins.idle with d1 := on } s = deliverWhen on .d1 .wbit1 s.dropResponse := by
  simp [clockEdge, Pins.idle, deliverWhen, deliverRx, deliverCmd, andThen_next_right]

theorem clockEdge_rx (rx : Option Byte) (s : State) :
    clockEdge { Pins.idle with rx := rx } s = deliverRx (s.rxReady false) rx s.dropResponse := by
  simp [clockEdge, Pins.idle, deliverWhen, deliverCmd, andThen_next_right]

theorem clockEdge_cmd (cmd : Option EventWord) (s : State) :
    clockEdge { Pins.idle with cmd := cmd } s = deliverCmd cmd s.dropResponse := by
  simp [clockEdge, Pins.idle, deliverWhen, deliverRx]

/-! ### What the ports other than the command port leave unchanged -/

/-- The response to an event on another port is discarded (R76). -/
theorem deliver_respValid {p : Port} {i : Instr} {s t : State} (hp : p ≠ .cmd)
    (h : deliver p i s = .next t) : t.respValid = s.respValid := by
  obtain ⟨u, hu⟩ := exec_total i s
  cases p
  case cmd => exact absurd rfl hp
  all_goals
    simp only [deliver, hu, andThen_next, Host.Outcome.next.injEq] at h
    rw [← h, State.keepResponse_respValid]

theorem deliverWhen_respValid {on : Bool} {p : Port} {i : Instr} {s t : State} (hp : p ≠ .cmd)
    (h : deliverWhen on p i s = .next t) : t.respValid = s.respValid := by
  unfold deliverWhen at h
  split at h
  · exact deliver_respValid hp h
  · simp only [Host.Outcome.next.injEq] at h
    rw [h]

theorem deliverRx_respValid {ready : Bool} {rx : Option Byte} {s t : State}
    (h : deliverRx ready rx s = .next t) : t.respValid = s.respValid := by
  cases rx with
  | none =>
    simp only [deliverRx, Host.Outcome.next.injEq] at h
    rw [h]
  | some b => exact deliverWhen_respValid (by decide) h

/-! ### What a bit event leaves unchanged -/

theorem wbit_rxReady (v rst : Bool) (s : State) : (s.wbit v).rxReady rst = s.rxReady rst := by
  obtain ⟨st, -, hw⟩ | ⟨-, -, -, hw⟩ := wbit_cases v s <;> simp [hw, State.rxReady]

theorem deliver_bit_rxReady {p : Port} {v rst : Bool} {s t : State}
    (h : deliver p (if v then .wbit1 else .wbit0) s = .next t) :
    t.rxReady rst = s.rxReady rst := by
  have hx : exec (if v then .wbit1 else .wbit0) s = .next (s.wbit v) := by cases v <;> rfl
  obtain ⟨u, hu, ht⟩ := deliver_eq_next h
  obtain rfl : s.wbit v = u := by simpa [hx] using hu
  rw [← wbit_rxReady v rst s]
  obtain rfl | rfl := ht <;> rfl

theorem deliverWhen_bit_rxReady {on : Bool} {p : Port} (v : Bool) {rst : Bool} {s t : State}
    (h : deliverWhen on p (if v then .wbit1 else .wbit0) s = .next t) :
    t.rxReady rst = s.rxReady rst := by
  unfold deliverWhen at h
  split at h
  · exact deliver_bit_rxReady h
  · simp only [Host.Outcome.next.injEq] at h
    rw [h]

/-- Settles O12: the four one-port edges are the four parts of the one edge, since after each of the first three `resp_valid`
is still down and `rx_ready` still stands as at the start of the cycle. -/
theorem sameCycleEventsInPortOrder : Obligations.SameCycleEventsInPortOrder := by
  unfold Obligations.SameCycleEventsInPortOrder
  intro p s hrst
  obtain ⟨s1, h1⟩ := deliverWhen_total p.d0 .d0 .wbit0 s.dropResponse
  obtain ⟨s2, h2⟩ := deliverWhen_total p.d1 .d1 .wbit1 s1
  obtain ⟨s3, h3⟩ := deliverRx_total (s.rxReady false) p.rx s2
  have v1 : s1.respValid = false := deliverWhen_respValid (by decide) h1
  have v2 : s2.respValid = false := (deliverWhen_respValid (by decide) h2).trans v1
  have v3 : s3.respValid = false := (deliverRx_respValid h3).trans v2
  have hready : s2.rxReady false = s.rxReady false :=
    calc s2.rxReady false
      _ = s1.rxReady false := deliverWhen_bit_rxReady true h2
      _ = s.dropResponse.rxReady false := deliverWhen_bit_rxReady false h1
      _ = s.rxReady false := rfl
  have hone : clockEdge p s = deliverCmd p.cmd s3 := by
    simp [clockEdge, hrst, h1, h2, h3]
  rw [hone, clockEdge_d0, h1, andThen_next, clockEdge_d1, dropResponse_eq_self v1, h2,
    andThen_next, clockEdge_rx, dropResponse_eq_self v2, hready, h3, andThen_next, clockEdge_cmd,
    dropResponse_eq_self v3]

end Sys2Proof.Machine
end

section
/-! PROOF. A frame whose payload is not exactly twelve characters (R57): a short one is discarded by its end marker (R102), a
long one is aborted by its thirteenth character, and the rest of it is ignored in IDLE (R103, R105). -/

namespace Sys2Proof.Machine

section Frame

variable (s : State) (h : s.cfg.configured = true) (hm : s.cfg.mode = .uart)
  (ha : s.available = false)
include h hm ha

/-- The start marker captures no character yet (R101). -/
theorem deliverAll_frame (cs : List Byte) :
    deliverAll (frame cs) s = deliverAll (bytesOf (cs ++ [0x03])) (s.captured []) := by
  show deliverAll (bytesOf (0x02 :: (cs ++ [0x03]))) s = _
  rw [deliverAll_bytesOf_cons _ _ s h hm ha, acceptByte_start, startFrame_eq_captured]

theorem deliverAll_frame_short (cs : List Byte) (hc : ∀ c ∈ cs, c ≠ 0x02 ∧ c ≠ 0x03)
    (hl : cs.length < 12) : deliverAll (frame cs) s = .next (s.captured cs).clearUart := by
  have hcap := deliverAll_captured s h hm ha cs [] (by simpa using hl.le) hc
  have hend : (s.captured cs).acceptByte 0x03 = (s.captured cs).clearUart :=
    acceptByte_end_short _ rfl (by rw [captured_count s cs hl.le]; omega)
  rw [deliverAll_frame s h hm ha, bytesOf_append, deliverAll_append, hcap, andThen_next,
    List.nil_append, deliverAll_bytesOf_cons _ _ (s.captured cs) h hm ha, hend]
  rfl

/-- The payload is cut at its thirteenth character. -/
theorem deliverAll_frame_long (pre : List Byte) (c : Byte) (rest : List Byte)
    (hc : ∀ d ∈ pre ++ c :: rest, d ≠ 0x02 ∧ d ≠ 0x03) (hl : pre.length = 12) :
    deliverAll (frame (pre ++ c :: rest)) s = .next (s.captured pre).clearUart := by
  have hcap := deliverAll_captured s h hm ha pre [] (by simpa using hl.le)
    fun d hd => hc d (List.mem_append_left _ hd)
  obtain ⟨h2, h3⟩ := hc c (by simp)
  have habort : (s.captured pre).acceptByte c = (s.captured pre).clearUart :=
    acceptByte_overflow c _ h2 h3 rfl (by rw [captured_count s pre hl.le]; omega)
  have hrest : ∀ d ∈ rest ++ [0x03], d ≠ 0x02 := by
    intro d hd
    obtain hd | hd := List.mem_append.mp hd
    · exact (hc d (by simp [hd])).1
    · rw [List.mem_singleton.mp hd]
      decide
  rw [deliverAll_frame s h hm ha, List.append_assoc, List.cons_append, bytesOf_append,
    deliverAll_append, hcap, andThen_next, List.nil_append,
    deliverAll_bytesOf_cons _ _ (s.captured pre) h hm ha, habort]
  exact deliverAll_idle (s.captured pre).clearUart h hm ha rfl _ hrest

end Frame

/-- Settles O41, by the length of the payload: below 12 the end marker discards it, above 12 the thirteenth character aborts
it. What was captured does not show in the cleared detector. -/
theorem otherLengthFrameNotDecoded : Obligations.OtherLengthFrameNotDecoded := by
  unfold Obligations.OtherLengthFrameNotDecoded
  intro s cs h hm ha hc hlen
  obtain hlt | hgt := Nat.lt_or_gt_of_ne hlen
  · exact deliverAll_frame_short s h hm ha cs hc hlt
  · have hsplit : cs.take 12 ++ cs[12] :: cs.drop 13 = cs := by
      rw [← List.drop_eq_getElem_cons hgt, List.take_append_drop]
    rw [← hsplit] at hc ⊢
    exact deliverAll_frame_long s h hm ha _ _ _ hc (by rw [List.length_take]; omega)

end Sys2Proof.Machine
end

section
/-! PROOF. How characters and bits are read: the table of hex digits (R81), and the order of the bits of `Field` (R84), which
is that of the numeral of its slice of the buffer. -/

namespace Sys2Proof.Machine

/-! ### The hex digits -/

theorem hexNibble_digit : ∀ k, k < 10 →
    hexNibble (BitVec.ofNat 8 (0x30 + k)) = (BitVec.ofNat 4 k, true) := by decide

theorem hexNibble_upper : ∀ k, k < 6 →
    hexNibble (BitVec.ofNat 8 (0x41 + k)) = (BitVec.ofNat 4 (10 + k), true) := by decide

theorem hexNibble_lower : ∀ k, k < 6 →
    hexNibble (BitVec.ofNat 8 (0x61 + k)) = (BitVec.ofNat 4 (10 + k), true) := by decide

/-- A character outside the three ranges passes none of the three tests (R81). -/
theorem hexNibble_other (c : Byte)
    (h : c < 0x30 ∨ (0x39 < c ∧ c < 0x41) ∨ (0x46 < c ∧ c < 0x61) ∨ 0x66 < c) :
    hexNibble c = (0, false) := by
  have hdigit : ¬(0x30 ≤ c ∧ c ≤ 0x39) := by bv_omega
  have hupper : ¬(0x41 ≤ c ∧ c ≤ 0x46) := by bv_omega
  have hlower : ¬(0x61 ≤ c ∧ c ≤ 0x66) := by bv_omega
  rw [hexNibble, if_neg hdigit, if_neg hupper, if_neg hlower]

/-- Settles O35, one lemma for each of the three ranges and one for what lies outside them. -/
theorem hexNibbleTable : Obligations.HexNibbleTable :=
  ⟨hexNibble_digit, hexNibble_upper, hexNibble_lower, hexNibble_other⟩

/-! ### The bits of a field -/

/-- Of a numeral's bits the one at list index `i` has the weight `2 ^ (length - 1 - i)`. -/
theorem testBit_bitsValue (bits : List Bool) (i : Nat) (h : i < bits.length) :
    (bitsValue bits).testBit (bits.length - 1 - i) = bits[i] := by
  induction bits using List.reverseRecOn with
  | nil => exact absurd h (Nat.not_lt_zero i)
  | append_singleton bits b ih =>
    rw [bitsValue_snoc, ← Nat.bit_val, List.length_append, List.length_singleton,
      Nat.add_sub_cancel]
    rw [List.length_append, List.length_singleton] at h
    obtain hlt | rfl := Nat.lt_succ_iff_lt_or_eq.mp h
    · rw [show bits.length - i = (bits.length - 1 - i) + 1 by omega, Nat.testBit_bit_succ, ih hlt,
        List.getElem_append_left hlt]
    · rw [Nat.sub_self, Nat.testBit_bit_zero, List.getElem_concat_length rfl]

/-- `Field` is the numeral of its slice of the buffer, whatever the buffer holds. -/
theorem field_eq_bitsValue_slice (wbuf : Vector Bool 100) (start n : Nat) (hn : start + n ≤ 100) :
    field wbuf start n = BitVec.ofNat n (bitsValue ((wbuf.toList.drop start).take n)) :=
  field_eq_bitsValue wbuf wbuf.toList
    (fun j hj => by rw [bitAt_eq wbuf j (by simpa using hj), Vector.getElem_toList]) start n
    (by simpa using hn)

/-- Settles O45: the field is the numeral of its slice, and of a numeral the first bit is the most significant. -/
theorem fieldMostSignificantFirst : Obligations.FieldMostSignificantFirst := by
  unfold Obligations.FieldMostSignificantFirst
  intro wbuf start n i hi hn
  have hlen : ((wbuf.toList.drop start).take n).length = n := by
    simp only [List.length_take, List.length_drop, Vector.length_toList]
    omega
  calc (field wbuf start n).getMsbD i
    _ = (field wbuf start n).getLsbD (n - 1 - i) := by simp [BitVec.getMsbD, hi]
    _ = (bitsValue ((wbuf.toList.drop start).take n)).testBit (n - 1 - i) := by
      rw [field_eq_bitsValue_slice wbuf start n hn, BitVec.getLsbD_ofNat,
        decide_eq_true (by omega), Bool.true_and]
    _ = ((wbuf.toList.drop start).take n)[i] := by
      rw [← testBit_bitsValue _ i (by omega), hlen]
    _ = wbuf[start + i] := by
      rw [List.getElem_take, List.getElem_drop, Vector.getElem_toList]

end Sys2Proof.Machine
end

section
/-! PROOF. UART_BYTE on a configured UART block (R101 to R106): held while a record is available, accepted otherwise. What an
accepted byte does to the detector is the `acceptByte` lemmas'; here stand the whole next states, and the record an end marker
finalizes, read off the twelve characters (R104, R107). -/

namespace Sys2Proof.Machine

/-! ### The record of twelve characters -/

/-- The checksum as one exclusive-OR, in the order of the loop of R107. -/
theorem uartChecksum_eq_xor (buf : Vector Byte 12) :
    uartChecksum buf =
      pairField buf 0 ^^^ pairField buf 1 ^^^ pairField buf 2 ^^^ pairField buf 3 ^^^
        pairField buf 4 := by
  simp [uartChecksum, List.range_succ]

/-- Each field is the hex field of its own characters; only the checksum's start value 0x00 has to go. -/
theorem uartRecord_of_characters (c0 c1 c2 c3 c4 c5 c6 c7 c8 c9 c10 c11 : Byte) :
    uartRecord #v[c0, c1, c2, c3, c4, c5, c6, c7, c8, c9, c10, c11] =
      { mfr := BitVec.ofNat 16 (hexField [c0, c1, c2, c3]).1
        id := BitVec.ofNat 24 (hexField [c4, c5, c6, c7, c8, c9]).1
        cks := BitVec.ofNat 8 (hexField [c10, c11]).1
        valid :=
          (BitVec.ofNat 8 (hexField [c0, c1]).1 ^^^ BitVec.ofNat 8 (hexField [c2, c3]).1 ^^^
            BitVec.ofNat 8 (hexField [c4, c5]).1 ^^^ BitVec.ofNat 8 (hexField [c6, c7]).1 ^^^
            BitVec.ofNat 8 (hexField [c8, c9]).1 == BitVec.ofNat 8 (hexField [c10, c11]).1) &&
          (hexField [c0, c1, c2, c3]).2 && (hexField [c4, c5, c6, c7, c8, c9]).2 &&
          (hexField [c10, c11]).2
        raw := #v[c0, c1, c2, c3, c4, c5, c6, c7, c8, c9, c10, c11] } := by
  rw [uartRecord, uartValid, uartChecksum_eq_xor]
  rfl

/-! ### An accepted byte -/

/-- With room in the buffer the append writes at `ucount` and counts up by 1 (R103). -/
theorem pushByte_eq (b : Byte) (s : State) (hc : s.ucount.toNat < 12) :
    s.pushByte b =
      { s with ubuf := s.ubuf.set s.ucount.toNat b hc
               ucount := BitVec.ofNat 4 (s.ucount.toNat + 1) } := by
  have hcount : s.ucount + 1 = BitVec.ofNat 4 (s.ucount.toNat + 1) := by
    rw [BitVec.ofNat_add, BitVec.ofNat_toNat, BitVec.setWidth_eq]
    rfl
  rw [State.pushByte, setIfInBounds_eq_set _ _ _ hc, hcount]

section Accepted

variable (s : State) (h : s.cfg.configured = true) (hm : s.cfg.mode = .uart)
  (ha : s.available = false)
include h hm ha

/-- A byte that finalizes no frame is answered (OK, 0x00) (R100). -/
theorem exec_uartByte_unfinished (b : Byte) (hf : finalizesFrame b s = false) :
    exec (.uartByte b) s = .next ((s.acceptByte b).respond .ok 0x00) := by
  rw [exec_uartByte_accepted b s h hm ha, hf]
  rfl

theorem exec_endMarker_full (hs : s.ustate = .reading) (hc : s.ucount.toNat = 12) :
    exec (.uartByte 0x03) s =
      .next ((s.clearUart.finalize (uartRecord s.ubuf)).respond .ok 0x01) := by
  rw [exec_uartByte_accepted _ s h hm ha, acceptByte_end_full s hs hc, finalizesFrame_end s hs hc]
  rfl

theorem exec_endMarker_short (hs : s.ustate = .reading) (hc : s.ucount.toNat ≠ 12) :
    exec (.uartByte 0x03) s = .next (s.clearUart.respond .ok 0x00) := by
  rw [exec_uartByte_unfinished s h hm ha _ (finalizesFrame_short _ s hc),
    acceptByte_end_short s hs hc]

end Accepted

/-! ### The statements -/

/-- Settles O29: a start marker finalizes nothing and restarts the frame. -/
theorem startMarkerStartsFrame : Obligations.StartMarkerStartsFrame := by
  unfold Obligations.StartMarkerStartsFrame
  intro s h hm ha
  rw [exec_uartByte_unfinished s h hm ha _ (finalizesFrame_other _ s (by decide)),
    acceptByte_start]
  rfl

/-- Settles O30: a full frame is finalized, a short one discarded. In the short case the end marker leaves `TR` and
`available` as they are, and (I3) says that `TR` is ZeroRecord. -/
theorem endMarkerClosesFrame : Obligations.EndMarkerClosesFrame := by
  unfold Obligations.EndMarkerClosesFrame
  intro s h hm ha hs
  constructor
  · intro hc
    rw [exec_endMarker_full s h hm ha hs hc]
    rfl
  · intro hc hinv
    rw [exec_endMarker_short s h hm ha hs hc.ne, ← hinv.unavailable_zero ha, ← ha]
    rfl

/-- Settles O31: the full case of the end marker, with the record read off the captured characters. -/
theorem finalizedRecordFromCharacters : Obligations.FinalizedRecordFromCharacters := by
  unfold Obligations.FinalizedRecordFromCharacters
  intro s c0 c1 c2 c3 c4 c5 c6 c7 c8 c9 c10 c11 h hm ha hs hc hbuf
  have hfull : s.ucount.toNat = 12 := by rw [hc]; rfl
  rw [exec_endMarker_full s h hm ha hs hfull, hbuf, uartRecord_of_characters]
  rfl

/-- Settles O32, by whether the buffer has room. -/
theorem payloadByteAppendsOrAborts : Obligations.PayloadByteAppendsOrAborts := by
  unfold Obligations.PayloadByteAppendsOrAborts
  intro s b h hm ha hs hb2 hb3
  rw [exec_uartByte_unfinished s h hm ha b (finalizesFrame_other b s hb3)]
  constructor
  · intro hc
    rw [acceptByte_payload b s hb2 hb3 hs hc, pushByte_eq b s hc]
    rfl
  · intro hc
    rw [acceptByte_overflow b s hb2 hb3 hs (by omega)]
    rfl

/-- Settles O33: in IDLE a byte other than the start marker is accepted without effect and finalizes nothing. -/
theorem idleByteIgnored : Obligations.IdleByteIgnored := by
  unfold Obligations.IdleByteIgnored
  intro s b h hm ha hs hb
  rw [exec_uartByte_unfinished s h hm ha b (finalizesFrame_idle b s hs), acceptByte_idle b s hb hs]
  rfl

/-- Settles O34: the conditions under which UART_BYTE is BUSY are those under which `rx_ready` is 0. -/
theorem byteHeldWhileAvailable : Obligations.ByteHeldWhileAvailable := by
  unfold Obligations.ByteHeldWhileAvailable
  intro s b h hm ha
  constructor
  · rw [exec_uartByte_held b s h hm ha]
    rfl
  · simp [State.rxReady, h, hm, ha]

end Sys2Proof.Machine
end

section
/-! PROOF. Bits on the Wiegand lines. A bit event's whole next state, in its four cases (R132); and a frame of exactly `len`
bits followed by a POLL, whose record is read off the delivered bits (R134, R135, R137, R165). -/

namespace Sys2Proof.Machine

/-! ### One bit event -/

theorem exec_bit (v : Bool) (s : State) :
    exec (if v then .wbit1 else .wbit0) s = .next (s.wbit v) := by
  cases v <;> rfl

theorem wbit_unconfigured (v : Bool) (s : State) (h : s.cfg.configured = false) :
    s.wbit v = s.respond .notConfigured 0x00 := by
  rw [State.wbit, gate_unconfigured _ s h]

theorem wbit_mismatch (v : Bool) (s : State) (h : s.cfg.configured = true)
    (hm : s.cfg.mode = .uart) : s.wbit v = s.respond .modeMismatch 0x00 := by
  rw [State.wbit, gate_mismatch .wiegand s h (by rw [hm]; decide)]

/-- With room in the buffer the bit is written at `wcount`, which counts up by 1 (R132). -/
theorem pushBit_eq (v : Bool) (s : State) (hc : s.wcount.toNat < 100) :
    s.pushBit v =
      { s with wbuf := s.wbuf.set s.wcount.toNat v hc
               wcount := BitVec.ofNat 7 (s.wcount.toNat + 1) } := by
  have hcount : s.wcount + 1 = BitVec.ofNat 7 (s.wcount.toNat + 1) := by
    rw [BitVec.ofNat_add, BitVec.ofNat_toNat, BitVec.setWidth_eq]
    rfl
  rw [State.pushBit, setIfInBounds_eq_set _ _ _ hc, hcount]

/-- Settles O43, one lemma about the bit event for each case. -/
theorem bitEventRecordsOrDrops : Obligations.BitEventRecordsOrDrops := by
  unfold Obligations.BitEventRecordsOrDrops
  rintro s v _ rfl
  rw [exec_bit]
  refine ⟨fun h => ?_, fun h hm => ?_, fun h hm hc => ?_, fun h hm hc => ?_⟩
  · rw [wbit_unconfigured v s h]
    rfl
  · rw [wbit_mismatch v s h hm]
    rfl
  · rw [wbit_recorded v s h hm hc, pushBit_eq v s hc]
    rfl
  · rw [wbit_dropped v s h hm (by omega)]
    rfl

/-! ### A complete frame -/

theorem exec_poll_complete (s : State) (h : s.cfg.configured = true)
    (hm : s.cfg.mode = .wiegand) (hw : s.wcount = s.cfg.len) :
    exec .poll s = .next ((s.finalize (wiegandRecord s.cfg.len s.wbuf)).respond .ok 0x01) := by
  simp only [exec, execPoll, gate_open s h, (complete_iff s).mpr ⟨hm, hw⟩, if_true]

/-- In a fresh cycle, `len` bits and a POLL finalize the record of a buffer that starts with these bits. -/
theorem deliverAll_wbits_poll (s : State) (bits : List Bool) (h : s.cfg.configured = true)
    (hm : s.cfg.mode = .wiegand) (hw : s.wcount = 0) (hlen : s.cfg.len.toNat = bits.length)
    (hcap : bits.length ≤ 100) :
    ∃ u : State, u.wcount = s.cfg.len ∧
      (∀ j (hj : j < bits.length), bitAt u.wbuf j = (bits[j]).toNat) ∧
      deliverAll (wbits bits ++ [onDefaultPort .poll]) s =
        .next ((u.finalize (wiegandRecord s.cfg.len u.wbuf)).respond .ok 0x01) := by
  have hzero : s.wcount.toNat = 0 := by rw [hw]; rfl
  obtain ⟨u, hu, hcfg, hcount, -, hbits⟩ := deliverAll_wbits bits s h hm (by omega)
  simp only [hzero, Nat.zero_add] at hcount hbits
  have hfull : u.wcount = u.cfg.len := BitVec.eq_of_toNat_eq (by rw [hcount, hcfg, hlen])
  have hpoll := exec_poll_complete u (hcfg ▸ h) (hcfg ▸ hm) hfull
  rw [hcfg] at hfull hpoll
  refine ⟨u, hfull, hbits, ?_⟩
  rw [deliverAll_append, hu, andThen_next]
  show andThen (exec .poll u) (deliverAll []) = _
  rw [hpoll]
  rfl

/-- A field widened to a register keeps the numeral of its bits, since that is below `2 ^ n` (R84). -/
theorem setWidth_field_eq_bitsValue (wbuf : Vector Bool 100) (bits : List Bool)
    (hb : ∀ j (hj : j < bits.length), bitAt wbuf j = (bits[j]).toNat) (start n m : Nat)
    (hn : start + n ≤ bits.length) (hm : n ≤ m) :
    (field wbuf start n).setWidth m = BitVec.ofNat m (bitsValue ((bits.drop start).take n)) := by
  have hlt : bitsValue ((bits.drop start).take n) < 2 ^ n :=
    (bitsValue_lt _).trans_le (Nat.pow_le_pow_right two_pos (List.length_take_le ..))
  rw [field_eq_bitsValue wbuf bits hb start n hn, BitVec.setWidth_ofNat_of_le_of_lt hm hlt]

/-- The 35-bit record is two slices of the bits; bits 0, 1 and 34 are ignored (R135). -/
theorem wiegandRecord_35_of_bits (wbuf : Vector Bool 100) (bits : List Bool)
    (hb : ∀ j (hj : j < bits.length), bitAt wbuf j = (bits[j]).toNat) (hl : bits.length = 35) :
    wiegandRecord 35 wbuf = {
      mfr := BitVec.ofNat 16 (bitsValue ((bits.drop 2).take 12))
      id := BitVec.ofNat 24 (bitsValue ((bits.drop 14).take 20))
      cks := 0, valid := true, raw := Vector.replicate 12 0x00 } := by
  rw [wiegandRecord, if_pos rfl,
    setWidth_field_eq_bitsValue wbuf bits hb 2 12 16 (by omega) (by omega),
    setWidth_field_eq_bitsValue wbuf bits hb 14 20 24 (by omega) (by omega)]
  rfl

/-- Settles O47: the POLL after the 35th bit finalizes the record of the delivered bits. -/
theorem thirtyFiveBitFrameExtracted : Obligations.ThirtyFiveBitFrameExtracted := by
  unfold Obligations.ThirtyFiveBitFrameExtracted
  intro s bits h hm hlen hw hl
  obtain ⟨u, hfull, hbits, hrun⟩ :=
    deliverAll_wbits_poll s bits h hm hw (by rw [hlen, hl]; rfl) (by omega)
  rw [hlen] at hfull hrun
  refine ⟨_, hrun, wiegandRecord_35_of_bits u.wbuf bits hbits hl, rfl, ?_, rfl, rfl⟩
  rw [State.respond_wcount, State.finalize_wcount, hfull]

end Sys2Proof.Machine
end

section
/-! PROOF. The facade: illegal words (R161), NOP (R160), POLL (R165), READID (R166), CONFIG (R168, R169) and HEXDEC (R170).
Which words decode to these events, and each event's whole next state; and a block that stays unconfigured until a CONFIG
succeeds (R169). -/

namespace Sys2Proof

/-! ### Words by their two fields -/

theorem op_append (op : BitVec 4) (arg : Byte) : EventWord.op (op ++ arg) = op :=
  BitVec.extractLsb'_append_eq_left

theorem arg_append (op : BitVec 4) (arg : Byte) : EventWord.arg (op ++ arg) = arg :=
  BitVec.extractLsb'_append_eq_right

/-- A word written as `op` shifted into place above `arg` (R71). -/
theorem shiftLeft_or_eq_append (op : BitVec 4) (arg : Byte) :
    op.setWidth 12 <<< 8 ||| arg.setWidth 12 = op ++ arg := by
  rw [BitVec.append_def, BitVec.setWidth'_eq, BitVec.shiftLeftZeroExtend_eq]

theorem decode_config_append (arg : Byte) :
    decode (0x6#4 ++ arg) =
      some (.config (decodeMode (arg.getLsbD 7)) (arg.extractLsb' 0 7)) := by
  rw [decode, op_append, arg_append]
  rfl

theorem decode_hexdec_append (c : Byte) : decode (0x7#4 ++ c) = some (.hexdec c) := by
  rw [decode, op_append, arg_append]
  rfl

/-- With bit 7 of the argument clear, CONFIG selects UART; its length bits stay in the syntax (R73). -/
theorem decode_config_uart (len : BitVec 7) :
    decode (0x600 ||| len.setWidth 12) = some (.config .uart len) := by
  have hword : (0x600 ||| len.setWidth 12 : EventWord) = 0x6#4 ++ len.setWidth 8 := by
    rw [← shiftLeft_or_eq_append, BitVec.setWidth_setWidth (by decide)]
    rfl
  have hmode : (len.setWidth 8).getLsbD 7 = false := by simp
  have hlen : (len.setWidth 8).extractLsb' 0 7 = len := by
    simp [BitVec.extractLsb'_setWidth_of_le]
  rw [hword, decode_config_append, hmode, hlen]
  rfl

/-- With bit 7 of the argument set, CONFIG selects WIEGAND (R73). -/
theorem decode_config_wiegand (len : BitVec 7) :
    decode (0x600 ||| 1 <<< 7 ||| len.setWidth 12) = some (.config .wiegand len) := by
  have hword : (0x600 ||| 1 <<< 7 ||| len.setWidth 12 : EventWord) =
      0x6#4 ++ (0x80#8 ||| len.setWidth 8) := by
    rw [← shiftLeft_or_eq_append, BitVec.setWidth_or,
      BitVec.setWidth_setWidth (by decide), ← BitVec.or_assoc]
    rfl
  have hmode : (0x80#8 ||| len.setWidth 8).getLsbD 7 = true := by simp
  have hlen : (0x80#8 ||| len.setWidth 8).extractLsb' 0 7 = len := by
    simp [BitVec.extractLsb'_or, BitVec.extractLsb'_setWidth_of_le]
  rw [hword, decode_config_append, hmode, hlen]
  rfl

theorem decode_hexdec (c : Byte) : decode (0x700 ||| c.setWidth 12) = some (.hexdec c) := by
  rw [← decode_hexdec_append, ← shiftLeft_or_eq_append]
  rfl

/-! ### Illegal words -/

/-- No event has an `op` in 0x8..0xF (R74). -/
theorem decode_reserved_op (w : EventWord) (h : 0x8 ≤ w.op) : decode w = none := by
  have hop : 8 ≤ w.op.toNat := h
  rw [decode]
  split
  case h_9 => rfl
  all_goals omega

/-- An event without an argument refuses a nonzero one (R74). -/
theorem decode_bare_nonzero_arg (w : EventWord) (hop : w.op ∈ [0x0, 0x2, 0x3, 0x4, 0x5])
    (harg : w.arg ≠ 0x00) : decode w = none := by
  have hbare (i : Instr) : decodeBare i w.arg = none := if_neg harg
  simp only [List.mem_cons, List.not_mem_nil, or_false] at hop
  obtain h | h | h | h | h := hop <;> simp [decode, h, hbare]

end Sys2Proof

namespace Sys2Proof.Machine

/-- Settles O8: the decoder refuses both kinds of illegal word, and raising the response covers the `resp_valid` that the edge
lowers first. -/
theorem illegalWordAnswered : Obligations.IllegalWordAnswered := by
  unfold Obligations.IllegalWordAnswered
  intro s w hw
  have hnone : decode w = none := by
    obtain hop | ⟨hop, harg⟩ := hw
    · exact decode_reserved_op w hop
    · exact decode_bare_nonzero_arg w hop harg
  rw [clockEdge_cmd, deliverCmd, runWord, hnone]
  rfl

/-! ### The events of the facade -/

/-- Settles O20: the words of `op` 0x0 are bare, and NOP is its response. -/
theorem nopOnlyResponds : Obligations.NopOnlyResponds := by
  unfold Obligations.NopOnlyResponds
  refine ⟨rfl, fun arg harg => ?_, fun s => rfl⟩
  exact decode_bare_nonzero_arg _ (by rw [op_append]; decide) (by rwa [arg_append])

/-- The five events that need a configured block are turned away by one that is not, before they do anything (R192). -/
theorem exec_unconfigured (i : Instr) (s : State) (hi : needsConfig i = true)
    (h : s.cfg.configured = false) : exec i s = .next (s.respond .notConfigured 0x00) := by
  cases i with
  | uartByte b => rw [exec, execUartByte, gate_unconfigured _ s h]
  | wbit0 => rw [exec, execWbit0, wbit_unconfigured false s h]
  | wbit1 => rw [exec, execWbit1, wbit_unconfigured true s h]
  | poll => rw [exec, execPoll, gate_unconfigured _ s h]
  | readid => rw [exec, execReadid, gate_unconfigured _ s h]
  | nop | config | hexdec => exact absurd hi Bool.false_ne_true

theorem exec_poll_incomplete (s : State) (h : s.cfg.configured = true)
    (hc : s.cfg.mode = .uart ∨ s.wcount ≠ s.cfg.len) :
    exec .poll s = .next (s.respond .ok (bitData s.available)) := by
  have hnot : ¬ s.complete = true := by
    rw [complete_iff]
    rintro ⟨hm, hw⟩
    obtain hu | hne := hc
    · exact absurd (hu.symm.trans hm) (by decide)
    · exact hne hw
  rw [exec, execPoll, gate_open s h]
  simp only [if_neg hnot]

/-- Settles O49, one lemma about POLL for each case. -/
theorem pollFinalizesOrReports : Obligations.PollFinalizesOrReports := by
  unfold Obligations.PollFinalizesOrReports
  refine ⟨rfl, fun s => ⟨fun h => ?_, fun h hm hw => ?_, fun h hc => ?_⟩⟩
  · exact exec_unconfigured .poll s rfl h
  · exact exec_poll_complete s h hm hw
  · exact exec_poll_incomplete s h hc

/-- On a configured block READID clears the cycle of the decoder that the mode selects (R166). -/
theorem exec_readid_configured (s : State) (h : s.cfg.configured = true) :
    exec .readid s = .next (s.takeRecord.clearCycle.respond .ok (bitData s.available)) := by
  rw [exec, execReadid, gate_open s h]

/-- Settles O51, by the mode, which decides what `clearCycle` clears. -/
theorem readidReturnsAndClears : Obligations.ReadidReturnsAndClears := by
  unfold Obligations.ReadidReturnsAndClears
  refine ⟨rfl, fun s => ⟨fun h => ?_, fun h hm => ?_, fun h hm => ?_⟩⟩
  · exact exec_unconfigured .readid s rfl h
  · rw [exec_readid_configured s h, State.clearCycle, State.takeRecord_cfg, hm]
    rfl
  · rw [exec_readid_configured s h, State.clearCycle, State.takeRecord_cfg, hm]
    rfl

theorem exec_config_wiegand_supported (len : BitVec 7) (s : State) (hl : len = 26 ∨ len = 35) :
    exec (.config .wiegand len) s = .next
      ((s.configure { configured := true, mode := .wiegand, len := len }).respond .ok 0x00) := by
  rw [exec, execConfig]
  simp only [if_pos hl]

theorem exec_config_wiegand_unsupported (len : BitVec 7) (s : State) (h26 : len ≠ 26)
    (h35 : len ≠ 35) :
    exec (.config .wiegand len) s = .next
      ((s.configure { configured := false, mode := .uart, len := 0 }).respond .cfgError 0x00) := by
  rw [exec, execConfig]
  simp only [if_neg (not_or.mpr ⟨h26, h35⟩)]

/-- Settles O57, by the mode and whether the length is supported. -/
theorem configResetsAndSelects : Obligations.ConfigResetsAndSelects := by
  unfold Obligations.ConfigResetsAndSelects
  intro s len
  refine ⟨decode_config_uart len, decode_config_wiegand len, rfl, fun hl => ?_, fun h26 h35 => ?_⟩
  · rw [exec_config_wiegand_supported len s hl]
    rfl
  · rw [exec_config_wiegand_unsupported len s h26 h35]
    rfl

theorem exec_hexdec_digit (c : Byte) (s : State) (h : (hexNibble c).2 = true) :
    exec (.hexdec c) s = .next (s.respond .ok ((hexNibble c).1.setWidth 8)) := by
  rw [exec, execHexdec, if_pos h]

theorem exec_hexdec_invalid (c : Byte) (s : State) (h : (hexNibble c).2 = false) :
    exec (.hexdec c) s = .next (s.respond .hexInvalid 0x00) := by
  rw [exec, execHexdec, if_neg (by simp [h])]

/-- Settles O59, by whether the character is a hex digit. -/
theorem hexdecAnswersDigit : Obligations.HexdecAnswersDigit := by
  unfold Obligations.HexdecAnswersDigit
  intro s c
  refine ⟨decode_hexdec c, fun v hv => ?_, fun hc => exec_hexdec_invalid c s hc⟩
  rw [exec_hexdec_digit c s (by rw [hv]), hv, BitVec.ofNat_toNat]
  rfl

/-! ### Until a successful CONFIG -/

/-- An event that is no successful CONFIG leaves an unconfigured block unconfigured (R169). -/
theorem exec_keeps_unconfigured {i : Instr} {s t : State}
    (hi : ∀ m l, i = .config m l → m = .wiegand ∧ l ≠ 26 ∧ l ≠ 35)
    (hs : s.cfg.configured = false) (h : exec i s = .next t) : t.cfg.configured = false := by
  obtain ⟨st, d, rfl⟩ | ⟨_, _, -, hc, -⟩ | ⟨_, -, hc, -⟩ | ⟨-, hc, -⟩ | ⟨_, -, hc, -⟩ |
    ⟨_, -, hc, -⟩ | ⟨m, l, _, _, rfl, -, -⟩ := exec_cases h
  case inl => exact hs
  case inr.inr.inr.inr.inr.inr =>
    obtain ⟨rfl, h26, h35⟩ := hi m l rfl
    rw [exec_config_wiegand_unsupported l s h26 h35, Host.Outcome.next.injEq] at h
    rw [← h]
    rfl
  all_goals exact absurd (hs.symm.trans hc) (by decide)

/-- So does a sequence of such events, on whatever ports they arrive. -/
theorem deliverAll_keeps_unconfigured (es : List Event) {s t : State}
    (hes : ∀ e ∈ es, ∀ m l, e.instr = .config m l → m = .wiegand ∧ l ≠ 26 ∧ l ≠ 35)
    (hs : s.cfg.configured = false) (h : deliverAll es s = .next t) :
    t.cfg.configured = false := by
  induction es generalizing s with
  | nil =>
    simp only [deliverAll, Host.Outcome.next.injEq] at h
    exact h ▸ hs
  | cons e es ih =>
    obtain ⟨u, hu, hrest⟩ := andThen_eq_next h
    obtain ⟨v, hv, hvu⟩ := deliver_eq_next hu
    have hunconf : v.cfg.configured = false :=
      exec_keeps_unconfigured (hes e List.mem_cons_self) hs hv
    refine ih (fun f hf => hes f (List.mem_cons_of_mem e hf)) ?_ hrest
    obtain rfl | rfl := hvu <;> exact hunconf

/-- Settles O58: the failed CONFIG leaves the block unconfigured, the later events keep it so, and such a block turns the five
events away. -/
theorem unsupportedLengthLeavesUnconfigured : Obligations.UnsupportedLengthLeavesUnconfigured := by
  unfold Obligations.UnsupportedLengthLeavesUnconfigured
  intro s len es h26 h35 hes
  have hconfig := exec_config_wiegand_unsupported len s h26 h35
  obtain ⟨u, hu⟩ := deliverAll_total es _
  exact ⟨_, u, hconfig, rfl, rfl, hu, fun i hi =>
    exec_unconfigured i u hi (deliverAll_keeps_unconfigured es hes rfl hu)⟩

end Sys2Proof.Machine
end

section
/-! PROOF. The status a word reports (R192): each status is answered under the condition that applies it first. -/

namespace Sys2Proof

/-! ### Illegal words -/

/-- The words that are not legal are R74's two kinds. -/
theorem legal_eq_false_iff (w : EventWord) :
    w.legal = false ↔ 0x8 ≤ w.op ∨ (w.op ∈ [0x0, 0x2, 0x3, 0x4, 0x5] ∧ w.arg ≠ 0x00) := by
  simp only [EventWord.legal, Bool.and_eq_false_iff, decide_eq_false_iff_not, BitVec.not_lt,
    Bool.or_eq_false_iff, Bool.not_eq_false', List.contains_iff_mem, beq_eq_false_iff_ne]

theorem decode_eq_none_of_not_legal (w : EventWord) (h : w.legal = false) : decode w = none := by
  obtain hop | ⟨hop, harg⟩ := (legal_eq_false_iff w).mp h
  · exact decode_reserved_op w hop
  · exact decode_bare_nonzero_arg w hop harg

end Sys2Proof

namespace Sys2Proof.Machine

theorem runWord_decoded {w : EventWord} {i : Instr} (h : decode w = some i) (s : State) :
    runWord w s = exec i s := by
  rw [runWord, h]

theorem runWord_not_legal {w : EventWord} (h : w.legal = false) (s : State) :
    runWord w s = .next (s.respond .illegal 0x00) := by
  rw [runWord, decode_eq_none_of_not_legal w h]
  rfl

/-! ### Events turned away and events that go ahead -/

/-- The status of an event whose next state is known to end in `respond`. -/
theorem respStatus_of_exec_eq {i : Instr} {s t u : State} {st : Status} {d : Byte}
    (h : exec i s = .next t) (hi : exec i s = .next (u.respond st d)) : t.respStatus = st := by
  obtain rfl := Host.Outcome.next.inj (h.symm.trans hi)
  rfl

/-- An event that belongs to one decoder needs a configured block. -/
theorem needsConfig_of_ownerMode {i : Instr} {m : Mode} (h : ownerMode i = some m) :
    needsConfig i = true := by
  cases i with
  | uartByte | wbit0 | wbit1 => rfl
  | nop | poll | readid | config | hexdec => exact absurd h (Option.some_ne_none m).symm

/-- A configured block turns the events of its inactive decoder away before they do anything (R171, R192). -/
theorem exec_mismatch {i : Instr} {m : Mode} (s : State) (hi : ownerMode i = some m)
    (h : s.cfg.configured = true) (hm : s.cfg.mode ≠ m) :
    exec i s = .next (s.respond .modeMismatch 0x00) := by
  cases i with
  | uartByte b =>
    obtain rfl := Option.some.inj hi
    rw [exec, execUartByte, gate_mismatch _ s h hm]
  | wbit0 =>
    obtain rfl := Option.some.inj hi
    rw [exec, execWbit0, State.wbit, gate_mismatch _ s h hm]
  | wbit1 =>
    obtain rfl := Option.some.inj hi
    rw [exec, execWbit1, State.wbit, gate_mismatch _ s h hm]
  | nop | poll | readid | config | hexdec => exact absurd hi (Option.some_ne_none _).symm

/-- The byte that is held is the one event that answers BUSY (R106). -/
theorem exec_uart_held {i : Instr} (s : State) (hi : ownerMode i = some .uart)
    (h : s.cfg.configured = true) (hm : s.cfg.mode = .uart) (ha : s.available = true) :
    exec i s = .next (s.respond .busy 0x00) := by
  cases i with
  | uartByte b => exact exec_uartByte_held b s h hm ha
  | wbit0 | wbit1 => exact absurd hi (by decide)
  | nop | poll | readid | config | hexdec => exact absurd hi (Option.some_ne_none _).symm

/-- In its own mode a bit event answers OK, whether the bit is recorded or dropped (R132). -/
theorem wbit_respStatus_ok (v : Bool) (s : State) (h : s.cfg.configured = true)
    (hm : s.cfg.mode = .wiegand) : (s.wbit v).respStatus = .ok := by
  by_cases hc : s.wcount.toNat < 100
  · rw [wbit_recorded v s h hm hc, State.respond_respStatus]
  · rw [wbit_dropped v s h hm hc, State.respond_respStatus]

/-- An event other than CONFIG and HEXDEC that no status turns away answers OK. -/
theorem exec_respStatus_ok {i : Instr} {s t : State} (h : exec i s = .next t)
    (hconfig : ∀ m l, i ≠ .config m l) (hhexdec : ∀ c, i ≠ .hexdec c)
    (hc : needsConfig i = true → s.cfg.configured = true)
    (hm : ∀ m, ownerMode i = some m → s.cfg.mode = m)
    (ha : ownerMode i = some .uart → s.available = false) : t.respStatus = .ok := by
  cases i with
  | nop => exact respStatus_of_exec_eq h rfl
  | uartByte b =>
    exact respStatus_of_exec_eq h (exec_uartByte_accepted b s (hc rfl) (hm _ rfl) (ha rfl))
  | wbit0 =>
    cases h
    exact wbit_respStatus_ok false s (hc rfl) (hm _ rfl)
  | wbit1 =>
    cases h
    exact wbit_respStatus_ok true s (hc rfl) (hm _ rfl)
  | poll =>
    obtain ⟨hn, -⟩ | ⟨-, -, rfl⟩ | ⟨-, -, -, rfl⟩ := exec_poll_cases s t h
    · exact absurd ((hc rfl).symm.trans hn) (by decide)
    · rfl
    · rfl
  | readid => exact respStatus_of_exec_eq h (exec_readid_configured s (hc rfl))
  | config m l => exact absurd rfl (hconfig m l)
  | hexdec c => exact absurd rfl (hhexdec c)

/-- R192's order for the events that the gate and BUSY can turn away. -/
theorem exec_respStatus {i : Instr} {s t : State} (h : exec i s = .next t)
    (hconfig : ∀ m l, i ≠ .config m l) (hhexdec : ∀ c, i ≠ .hexdec c) :
    t.respStatus =
      if needsConfig i = true ∧ s.cfg.configured = false then .notConfigured
      else if ownerMode i ≠ none ∧ ownerMode i ≠ some s.cfg.mode then .modeMismatch
      else if ownerMode i = some .uart ∧ s.available = true then .busy
      else .ok := by
  split_ifs with hunconf hother hheld
  case pos =>
    obtain ⟨hi, hc⟩ := hunconf
    exact respStatus_of_exec_eq h (exec_unconfigured i s hi hc)
  all_goals
    have hc : needsConfig i = true → s.cfg.configured = true := by simpa using hunconf
  case pos =>
    obtain ⟨howned, hne⟩ := hother
    obtain ⟨m, hi⟩ := Option.ne_none_iff_exists'.mp howned
    have hm : s.cfg.mode ≠ m := fun heq => hne (heq ▸ hi)
    exact respStatus_of_exec_eq h (exec_mismatch s hi (hc (needsConfig_of_ownerMode hi)) hm)
  all_goals
    have hm : ∀ m, ownerMode i = some m → s.cfg.mode = m := fun m hi => by
      simpa [hi, eq_comm] using hother
  case pos =>
    obtain ⟨hi, ha⟩ := hheld
    have hconf := hc (needsConfig_of_ownerMode hi)
    exact respStatus_of_exec_eq h (exec_uart_held s hi hconf (hm _ hi) ha)
  case neg =>
    exact exec_respStatus_ok h hconfig hhexdec hc hm (by simpa using hheld)

/-- Settles O23: an illegal word decodes to no event, and a decoded word answers as its event does. -/
theorem statusPriority : Obligations.StatusPriority := by
  unfold Obligations.StatusPriority
  intro w s t h
  refine ⟨fun hw => ?_, fun i hd hconfig hhexdec => ?_, fun m l hd => ?_, fun c hd => ?_⟩
  · rw [runWord_not_legal hw] at h
    cases h
    rfl
  all_goals rw [runWord_decoded hd] at h
  · exact exec_respStatus h hconfig hhexdec
  · obtain ⟨_, -, -, rfl⟩ | rfl := exec_config_cases m l s t h
    · exact .inl rfl
    · exact .inr rfl
  · obtain ⟨-, rfl⟩ | ⟨-, rfl⟩ := exec_hexdec_cases c s t h
    · exact .inl rfl
    · exact .inr rfl

end Sys2Proof.Machine
end

section
/-! PROOF. The invariants of R31 (O15, O16, O18): every operation of Machine/Ops.lean keeps them in the situation in which an
event applies it, so every event and every clock cycle keeps them. -/

namespace Sys2Proof.Machine

variable {s t : State}

/-! ### What the invariants do not read -/

theorem State.Inv.respond (hs : s.Inv) (st : Status) (d : Byte) : (s.respond st d).Inv := { hs with }

theorem State.Inv.dropResponse (hs : s.Inv) : s.dropResponse.Inv := { hs with }

theorem State.Inv.keepResponse (hs : s.Inv) (old : State) : (State.keepResponse old s).Inv :=
  { hs with }

theorem State.Inv.advance (hs : s.Inv) : s.advance.Inv := { hs with }

/-! ### Resets -/

/-- A configured block is as after reset but for `CFG`, so a legal `CFG` is all it takes. -/
theorem configure_inv (s : State) {c : Cfg} (hc : c.legal = true) : (s.configure c).Inv where
  ucount_le := Nat.zero_le _
  wcount_le := Nat.zero_le _
  idle_clear _ := ⟨rfl, rfl⟩
  unavailable_zero _ := rfl
  available_justified ha := absurd ha Bool.false_ne_true
  cfg_legal := hc
  wiegand_record _ := ⟨rfl, rfl⟩
  uart_bits_clear _ := ⟨rfl, rfl⟩
  wiegand_uart_idle _ := rfl

theorem blockReset_inv (s : State) : s.blockReset.Inv :=
  { configure_inv s (c := State.reset.cfg) rfl with }

/-- The configurations that CONFIG sets are legal (R22, R168). -/
theorem legal_of_config {c : Cfg}
    (hc : (c.mode = .uart ∧ c.len = 0) ∨ (c.mode = .wiegand ∧ (c.len = 26 ∨ c.len = 35))) :
    c.legal = true := by
  obtain ⟨hm, hl⟩ | ⟨hm, hl | hl⟩ := hc <;> simp [Cfg.legal, hm, hl]

/-! ### Records -/

/-- Finalizing keeps the invariants when the record is the one its own fields justify. -/
theorem State.Inv.finalize (hs : s.Inv) {r : TagRecord}
    (hj : r = (s.finalize r).justified ∧ (s.cfg.mode = .wiegand → s.cfg.len.toNat ≤ s.wcount.toNat))
    (hw : s.cfg.mode = .wiegand → r.raw = zeroBytes ∧ r.cks = 0) : (s.finalize r).Inv :=
  { hs with
    unavailable_zero := fun ha => absurd ha.symm Bool.false_ne_true
    available_justified := fun _ => hj
    wiegand_record := hw }

/-- No length puts characters or a checksum into a Wiegand record (R137). -/
theorem wiegandRecord_raw_cks (len : BitVec 7) (wbuf : Vector Bool 100) :
    (wiegandRecord len wbuf).raw = zeroBytes ∧ (wiegandRecord len wbuf).cks = 0 := by
  unfold wiegandRecord
  split_ifs <;> exact ⟨rfl, rfl⟩

theorem State.Inv.takeRecord (hs : s.Inv) : s.takeRecord.Inv :=
  { hs with
    unavailable_zero := fun _ => rfl
    available_justified := fun ha => absurd ha Bool.false_ne_true
    wiegand_record := fun _ => ⟨rfl, rfl⟩ }

theorem mode_ne_wiegand (hm : s.cfg.mode = .uart) : s.cfg.mode ≠ .wiegand := by
  rw [hm]
  decide

/-! ### The UART detector -/

theorem State.Inv.clearUart (hs : s.Inv) : s.clearUart.Inv :=
  { hs with
    ucount_le := Nat.zero_le _
    idle_clear := fun _ => ⟨rfl, rfl⟩
    wiegand_uart_idle := fun _ => rfl }

theorem State.Inv.startFrame (hs : s.Inv) (hm : s.cfg.mode = .uart) (ha : s.available = false) :
    s.startFrame.Inv :=
  { hs with
    ucount_le := Nat.zero_le _
    idle_clear := fun hi => absurd hi (by simp)
    unavailable_zero := fun _ => rfl
    available_justified := fun h => absurd (ha.symm.trans h) Bool.false_ne_true
    wiegand_record := fun hw => absurd hw (mode_ne_wiegand hm)
    wiegand_uart_idle := fun hw => absurd hw (mode_ne_wiegand hm) }

theorem State.Inv.pushByte (hs : s.Inv) (hr : s.ustate = .reading) (hc : s.ucount.toNat < 12)
    (b : Byte) : (s.pushByte b).Inv :=
  { hs with
    ucount_le := by
      rw [State.pushByte_ucount, ucount_succ s hc]
      exact hc
    idle_clear := fun hi => absurd (hr.symm.trans hi) (by decide) }

/-- The record of the captured characters is justified by the characters it keeps (R104). -/
theorem State.Inv.finalizeUart (hs : s.Inv) (hm : s.cfg.mode = .uart) (buf : Vector Byte 12) :
    (s.finalize (uartRecord buf)).Inv :=
  hs.finalize ⟨by simp [State.justified, hm, uartRecord], fun hw => absurd hw (mode_ne_wiegand hm)⟩
    fun hw => absurd hw (mode_ne_wiegand hm)

theorem State.Inv.acceptByte (hs : s.Inv) (hm : s.cfg.mode = .uart) (ha : s.available = false)
    (b : Byte) : (s.acceptByte b).Inv := by
  obtain ⟨-, h⟩ | ⟨-, -, h⟩ | ⟨-, -, -, h⟩ | ⟨-, -, hr, hc, h⟩ | ⟨-, -, h⟩ :=
    acceptByte_cases b s <;> rw [h]
  · exact hs.startFrame hm ha
  · exact hs
  · exact hs.clearUart.finalizeUart hm s.ubuf
  · exact hs.pushByte hr hc b
  · exact hs.clearUart

/-! ### The bit buffer -/

/-- A bit arrives past the bits an available record was read from, so the record stays justified (R137). -/
theorem State.Inv.pushBit (hs : s.Inv) (hm : s.cfg.mode = .wiegand) (hc : s.wcount.toNat < 100)
    (v : Bool) : (s.pushBit v).Inv :=
  { hs with
    wcount_le := by
      rw [State.pushBit_wcount, wcount_succ s hc]
      exact hc
    available_justified := fun ha => by
      obtain ⟨hj, hl⟩ := hs.available_justified ha
      have hle := hl hm
      refine ⟨hj.trans ?_, fun _ => ?_⟩
      · simp only [State.justified, State.pushBit_cfg, State.pushBit_wbuf, hm]
        exact wiegandRecord_congr _ _ _ fun i hi =>
          (bitAt_setIfInBounds_ne _ _ _ _ (by omega)).symm
      · rw [State.pushBit_cfg, State.pushBit_wcount, wcount_succ s hc]
        omega
    uart_bits_clear := fun hu => absurd hm (mode_ne_wiegand hu) }

theorem State.Inv.finalizeWiegand (hs : s.Inv) (hm : s.cfg.mode = .wiegand)
    (hw : s.wcount = s.cfg.len) : (s.finalize (wiegandRecord s.cfg.len s.wbuf)).Inv :=
  hs.finalize ⟨by simp [State.justified, hm], fun _ => hw ▸ le_rfl⟩
    fun _ => wiegandRecord_raw_cks _ _

/-- With nothing available no record rests on the bits that are cleared. -/
theorem State.Inv.clearBits (hs : s.Inv) (ha : s.available = false) : s.clearBits.Inv :=
  { hs with
    wcount_le := Nat.zero_le _
    available_justified := fun h => absurd (ha.symm.trans h) Bool.false_ne_true
    uart_bits_clear := fun _ => ⟨rfl, rfl⟩ }

/-! ### Events and cycles -/

theorem exec_keeps_inv {i : Instr} (hs : s.Inv) (h : exec i s = .next t) : t.Inv := by
  obtain ⟨st, d, rfl⟩ | ⟨b, d, -, -, hm, ha, rfl⟩ | ⟨v, -, -, hm, hc, rfl⟩ | ⟨-, -, hm, hw, rfl⟩ |
    ⟨d, -, -, -, rfl⟩ | ⟨d, -, -, -, rfl⟩ | ⟨_, _, c, st, -, hc, rfl⟩ := exec_cases h
  · exact hs.respond st d
  · exact (hs.acceptByte hm ha b).respond ..
  · exact (hs.pushBit hm hc v).respond ..
  · exact (hs.finalizeWiegand hm hw).respond ..
  · exact hs.takeRecord.clearUart.respond ..
  · exact (hs.takeRecord.clearBits rfl).respond ..
  · exact (configure_inv s (legal_of_config hc)).respond ..

theorem kept_inv : Kept State.Inv where
  drop _ hs := hs.dropResponse
  respond _ st d hs := hs.respond st d
  keep old _ hs := hs.keepResponse old
  exec _ _ _ hs h := exec_keeps_inv hs h

/-- Settles O16: each event keeps the invariants and a reset edge establishes them. -/
theorem stepKeepsInvariants : Obligations.StepKeepsInvariants := by
  unfold Obligations.StepKeepsInvariants
  intro s t hs h
  exact kept_inv.step blockReset_inv (fun _ hu => hu.advance) hs h

/-- Settles O15: reset is a block reset of itself. -/
theorem resetMeetsInvariants : Obligations.ResetMeetsInvariants := blockReset_inv State.reset

/-- Settles O18: a valid record is available (I3), so it is the record of the characters it keeps (I4), and such a record is
valid only for twelve hex digits whose checksum agrees (R104). -/
theorem validUartRecordIsCheckedHex : Obligations.ValidUartRecordIsCheckedHex := by
  unfold Obligations.ValidUartRecordIsCheckedHex
  intro s hs hm hv
  have havail : s.available = true := by
    by_contra ha
    rw [hs.unavailable_zero (by simpa using ha)] at hv
    exact absurd hv (by decide)
  have htr : s.tr = uartRecord s.tr.raw := by
    obtain ⟨hj, -⟩ := hs.available_justified havail
    rwa [State.justified, hm] at hj
  have hvalid : uartValid s.tr.raw = true := by
    rwa [htr] at hv
  have hcks : s.tr.cks = BitVec.ofNat 8 (cksField s.tr.raw).1 := by
    conv_lhs => rw [htr]
    rfl
  obtain ⟨hsum, hhex⟩ := (uartValid_iff _).mp hvalid
  exact ⟨hhex, hsum.trans hcks.symm⟩

end Sys2Proof.Machine
end

section
/-! PROOF. Which registers an event can write (R35, R55, R171), and what it leaves in all others: the frame of `exec`, read
off the seven effects of `exec_cases`. -/

namespace Sys2Proof.Machine

variable {i : Instr} {s t : State}

/-! ### What an accepted byte leaves unchanged -/

theorem acceptByte_frame (b : Byte) (s : State) :
    (s.acceptByte b).cfg = s.cfg ∧ (s.acceptByte b).wcount = s.wcount ∧
      (s.acceptByte b).wbuf = s.wbuf ∧ (s.acceptByte b).ro = s.ro := by
  obtain ⟨-, h⟩ | ⟨-, -, h⟩ | ⟨-, -, -, h⟩ | ⟨-, -, -, -, h⟩ | ⟨-, -, h⟩ :=
    acceptByte_cases b s <;> simp [h]

/-- It writes the buffer at `ucount` alone, unless it starts or ends a frame, which leaves `ucount` 0 (R55). -/
theorem acceptByte_ubuf (b : Byte) (s : State) (hc : (s.acceptByte b).ucount ≠ 0) (j : Nat)
    (hj : j < 12) (hne : j ≠ s.ucount.toNat) : (s.acceptByte b).ubuf[j] = s.ubuf[j] := by
  obtain ⟨-, h⟩ | ⟨-, -, h⟩ | ⟨-, -, -, h⟩ | ⟨-, -, -, -, h⟩ | ⟨-, -, h⟩ := acceptByte_cases b s
  case inr.inl => rw [h]
  case inr.inr.inr.inl => simp [h, hne.symm]
  all_goals exact absurd (by rw [h]; rfl) hc

/-! ### The frame of an event -/

/-- Settles O25, by the effect of the event: an answer writes none of these registers, and each other effect is that of one of
the events excepted. -/
theorem registersWrittenOnlyByNamedEvents : Obligations.RegistersWrittenOnlyByNamedEvents := by
  unfold Obligations.RegistersWrittenOnlyByNamedEvents
  intro i s t h hconfig
  obtain ⟨st, d, rfl⟩ | ⟨b, d, rfl, -, -, -, rfl⟩ | ⟨v, rfl, -, -, -, rfl⟩ | ⟨rfl, -, -, -, rfl⟩ |
    ⟨d, rfl, -, -, rfl⟩ | ⟨d, rfl, -, -, rfl⟩ | ⟨m, l, c, st, rfl, -, -⟩ := exec_cases h
  · simp
  · simp [acceptByte_frame]
  · cases v <;> simp
  · simp
  · simp
  · simp
  · exact absurd rfl (hconfig m l)

theorem exec_cfg (hi : ∀ m l, i ≠ .config m l) (h : exec i s = .next t) : t.cfg = s.cfg := by
  obtain ⟨hcfg, -⟩ := registersWrittenOnlyByNamedEvents i s t h hi
  exact hcfg

theorem exec_cfg_of_quiet (hi : endsCycle i = false) (h : exec i s = .next t) : t.cfg = s.cfg := by
  refine exec_cfg (fun m l hc => ?_) h
  rw [hc] at hi
  exact absurd hi.symm Bool.false_ne_true

/-- Settles O22: the gate turns the events of the inactive decoder away, and none of the effects that remain in a mode writes
the other decoder's registers. -/
theorem onlyActiveDecoderChanges : Obligations.OnlyActiveDecoderChanges := by
  unfold Obligations.OnlyActiveDecoderChanges
  refine ⟨fun s i m h hi hm => exec_mismatch s hi h hm, fun s t i hconfig h => ?_⟩
  obtain ⟨st, d, rfl⟩ | ⟨b, d, -, -, hm, -, rfl⟩ | ⟨v, -, -, hm, -, rfl⟩ | ⟨-, -, hm, -, rfl⟩ |
    ⟨d, -, -, hm, rfl⟩ | ⟨d, -, -, hm, rfl⟩ | ⟨m, l, c, st, rfl, -, -⟩ := exec_cases h
  · simp
  · simp [hm, acceptByte_frame]
  · simp [hm]
  · simp
  · simp [hm]
  · simp [hm]
  · exact absurd rfl (hconfig m l)

/-- Settles O27: of the effects other than READID's and CONFIG's a recorded bit alone writes `wbuf`, and an accepted byte
alone `ubuf`. -/
theorem buffersWrittenOnlyAtCounters : Obligations.BuffersWrittenOnlyAtCounters := by
  unfold Obligations.BuffersWrittenOnlyAtCounters
  intro i s t h hquiet
  obtain ⟨st, d, rfl⟩ | ⟨b, d, rfl, -, -, -, rfl⟩ | ⟨v, rfl, -, -, -, rfl⟩ | ⟨rfl, -, -, -, rfl⟩ |
    ⟨d, rfl, -, -, -⟩ | ⟨d, rfl, -, -, -⟩ | ⟨m, l, c, st, rfl, -, -⟩ := exec_cases h
  · simp
  · refine ⟨by simp [acceptByte_frame], fun hc j hj hne => ⟨?_, b, rfl⟩⟩
    exact Not.imp_symm (acceptByte_ubuf b s hc j hj) hne
  · refine ⟨fun j hj hne => ⟨?_, by cases v <;> simp⟩, by simp⟩
    exact Not.imp_symm (fun hj' => by simp [Ne.symm hj']) hne
  · simp
  all_goals exact absurd hquiet.symm Bool.false_ne_true

/-- Settles O28: no effect writes a queue, and each ends in a response. -/
theorem eventsLeaveAgentQueues : Obligations.EventsLeaveAgentQueues := by
  unfold Obligations.EventsLeaveAgentQueues
  intro i s t h
  obtain ⟨st, d, rfl⟩ | ⟨b, d, -, -, -, -, rfl⟩ | ⟨v, -, -, -, -, rfl⟩ | ⟨-, -, -, -, rfl⟩ |
    ⟨d, -, -, -, rfl⟩ | ⟨d, -, -, -, rfl⟩ | ⟨m, l, c, st, -, -, rfl⟩ := exec_cases h
  case inr.inl => simp [acceptByte_outside]
  all_goals exact ⟨rfl, rfl, rfl, rfl, rfl⟩

theorem exec_transport (h : exec i s = .next t) : t.transport = s.transport := by
  obtain ⟨htransport, -⟩ := eventsLeaveAgentQueues i s t h
  exact htransport

/-! ### Events turned away -/

/-- Settles O21: all five are turned away by the gate. -/
theorem unconfiguredTurnsEventsAway : Obligations.UnconfiguredTurnsEventsAway := by
  unfold Obligations.UnconfiguredTurnsEventsAway
  exact fun s i hc hi => exec_unconfigured i s hi hc

theorem wbit_not_ok (v : Bool) (hok : (s.wbit v).respStatus ≠ .ok) :
    (s.wbit v).respStatus ≠ .cfgError ∧ ∃ st, s.wbit v = s.respond st 0x00 := by
  obtain ⟨st, hst, hw⟩ | ⟨-, -, -, hw⟩ := wbit_cases v s <;> rw [hw] at hok ⊢
  · exact ⟨hst, st, rfl⟩
  · exact absurd rfl hok

/-- An event answered with a status other than OK is that answer alone, or a CONFIG that fails (R191). -/
theorem exec_not_ok (h : exec i s = .next t) (hok : t.respStatus ≠ .ok) :
    (t.respStatus ≠ .cfgError ∧ ∃ st, t = s.respond st 0x00) ∨
      t = (s.configure { configured := false, mode := .uart, len := 0 }).respond .cfgError 0x00 := by
  cases i with
  | nop =>
    cases h
    exact absurd rfl hok
  | uartByte b =>
    obtain ⟨st, -, hst, rfl⟩ | ⟨-, -, -, rfl⟩ := exec_uartByte_cases b s t h
    · exact .inl ⟨hst, st, rfl⟩
    · exact absurd rfl hok
  | wbit0 =>
    cases h
    exact .inl (wbit_not_ok false hok)
  | wbit1 =>
    cases h
    exact .inl (wbit_not_ok true hok)
  | poll =>
    obtain ⟨-, rfl⟩ | ⟨-, -, rfl⟩ | ⟨-, -, -, rfl⟩ := exec_poll_cases s t h
    · exact .inl ⟨by simp, _, rfl⟩
    · exact absurd rfl hok
    · exact absurd rfl hok
  | readid =>
    obtain ⟨-, rfl⟩ | ⟨-, -, rfl⟩ | ⟨-, -, rfl⟩ := exec_readid_cases s t h
    · exact .inl ⟨by simp, _, rfl⟩
    · exact absurd rfl hok
    · exact absurd rfl hok
  | config m l =>
    obtain ⟨c, -, -, rfl⟩ | rfl := exec_config_cases m l s t h
    · exact absurd rfl hok
    · exact .inr rfl
  | hexdec c =>
    obtain ⟨-, rfl⟩ | ⟨-, rfl⟩ := exec_hexdec_cases c s t h
    · exact absurd rfl hok
    · exact .inl ⟨by simp, _, rfl⟩

/-- Settles O24: an illegal word is its answer alone, and a decoded word is its event. -/
theorem nonOkChangesNoState : Obligations.NonOkChangesNoState := by
  unfold Obligations.NonOkChangesNoState
  intro w s t h hok
  obtain ⟨i, -, hi⟩ | ⟨-, rfl⟩ := runWord_eq_next h
  · obtain ⟨hst, st, rfl⟩ | rfl := exec_not_ok hi hok
    · exact ⟨fun _ => rfl, fun hcfg => absurd hcfg hst⟩
    · exact ⟨fun hne => absurd rfl hne, fun _ => rfl⟩
  · exact ⟨fun _ => rfl, fun hcfg => absurd hcfg (by simp)⟩

/-! ### Cycles -/

/-- Settles O26, by what the cycle presents: the bits and the byte leave `CFG`, and so does any command but CONFIG. -/
theorem cfgChangesOnlyByConfigOrReset : Obligations.CfgChangesOnlyByConfigOrReset := by
  unfold Obligations.CfgChangesOnlyByConfigOrReset
  intro s t h hne
  have quiet : KeptQuietly fun u : State => u.cfg = s.cfg :=
    { drop := fun _ hu => hu
      respond := fun _ _ _ hu => hu
      keep := fun _ _ hu => hu
      exec := fun _ _ _ hi hu hv => (exec_cfg_of_quiet hi hv).trans hu }
  obtain ⟨hr, -⟩ | ⟨-, s1, s2, s3, h1, h2, h3, h4⟩ := clockEdge_parts h
  · exact .inl hr
  · have h0 : s.advance.dropResponse.cfg = s.cfg := rfl
    have h3cfg : s3.cfg = s.cfg :=
      quiet.deliverRx (quiet.deliverWhen rfl (quiet.deliverWhen rfl h0 h1) h2) h3
    cases hcmd : s.pins.cmd with
    | none =>
      simp only [hcmd, deliverCmd, Host.Outcome.next.injEq] at h4
      exact absurd (h4 ▸ h3cfg) hne
    | some w =>
      rw [hcmd] at h4
      obtain ⟨i, hd, hi⟩ | ⟨-, rfl⟩ := runWord_eq_next h4
      · by_cases hc : ∃ m l, i = .config m l
        · obtain ⟨m, l, rfl⟩ := hc
          exact .inr ⟨w, m, l, rfl, hd⟩
        · push Not at hc
          exact absurd ((exec_cfg hc hi).trans h3cfg) hne
      · exact absurd h3cfg hne

end Sys2Proof.Machine
end

section
/-! PROOF. Reset and the step: what a clock cycle does whatever the agents present (R53, R76, R78, R203, R210), what it does when
one agent alone presents something, the output ports (R77), and several blocks on a platform (R199). -/

namespace Sys2Proof.Machine

/-! ### Reset -/

/-- Settles O5: every register of `State.reset` is written out. -/
theorem resetValues : Obligations.ResetValues := by
  unfold Obligations.ResetValues
  refine ⟨rfl, rfl, rfl, fun j h => ?_, rfl, fun j h => ?_, rfl,
    ⟨rfl, rfl, rfl, rfl, fun j h => ?_⟩, rfl, rfl, rfl, rfl⟩
  all_goals exact Vector.getElem_replicate h

/-! ### Every cycle -/

theorem clockEdge_total (p : Pins) (s : State) : ∃ t, clockEdge p s = .next t := by
  cases hr : p.rst with
  | true => exact ⟨s.blockReset, by rw [clockEdge, if_pos hr]⟩
  | false =>
    obtain ⟨s1, h1⟩ := deliverWhen_total p.d0 .d0 .wbit0 s.dropResponse
    obtain ⟨s2, h2⟩ := deliverWhen_total p.d1 .d1 .wbit1 s1
    obtain ⟨s3, h3⟩ := deliverRx_total (s.rxReady false) p.rx s2
    obtain ⟨t, h4⟩ := deliverCmd_total p.cmd s3
    exact ⟨t, by simp [clockEdge, hr, h1, h2, h3, h4]⟩

/-- Settles O9: a reset ends in a next state, and so does each of the four parts of any other edge. -/
theorem stepAnswersNext : Obligations.StepAnswersNext := fun s => clockEdge_total s.pins s.advance

theorem clockEdge_rst {p : Pins} (h : p.rst = true) (s : State) :
    clockEdge p s = .next s.blockReset := by
  rw [clockEdge, if_pos h]

/-- Settles O10: what the edge leaves of the queues is what `advance` leaves, and `rx_ready` is 0, so the byte stays. -/
theorem rstEdgeResetsBlock : Obligations.RstEdgeResetsBlock := by
  unfold Obligations.RstEdgeResetsBlock
  intro s c cs hs hr
  have hcycle : s.cycle = c := by simp [State.cycle, hs]
  have hrst : s.pins.rst = true := by rw [State.pins, hcycle, hr]
  refine ⟨rfl, ?_⟩
  rw [step, clockCycle, clockEdge_rst hrst]
  simp [State.blockReset, State.advance, hcycle, hr, hs, State.rxReady]

/-- A presented command word answers, and without one the edge ends with `resp_valid` as it found it (R76). -/
theorem deliverCmd_respValid {cmd : Option EventWord} {s t : State}
    (h : deliverCmd cmd s = .next t) : t.respValid = (cmd.isSome || s.respValid) := by
  cases cmd with
  | none =>
    simp only [deliverCmd, Host.Outcome.next.injEq] at h
    rw [h]
    rfl
  | some w =>
    obtain ⟨i, -, hi⟩ | ⟨-, rfl⟩ := runWord_eq_next h
    · obtain ⟨-, -, -, -, hvalid⟩ := eventsLeaveAgentQueues i s t hi
      exact hvalid
    · rfl

/-- Settles O11: the edge lowers `resp_valid`, and of its events the command alone raises it. -/
theorem responseValidExactlyAfterCommand : Obligations.ResponseValidExactlyAfterCommand := by
  unfold Obligations.ResponseValidExactlyAfterCommand
  intro s t h
  obtain ⟨hr, rfl⟩ | ⟨hr, s1, s2, s3, h1, h2, h3, h4⟩ := clockEdge_parts h
  · simp [hr]
  · have hlow : s3.respValid = false :=
      calc s3.respValid
        _ = s2.respValid := deliverRx_respValid h3
        _ = s1.respValid := deliverWhen_respValid (by decide) h2
        _ = s.advance.dropResponse.respValid := deliverWhen_respValid (by decide) h1
        _ = false := rfl
    rw [deliverCmd_respValid h4, hlow, hr]
    simp

/-! ### The transport's byte -/

theorem rxReady_eq_false_iff (s : State) (rst : Bool) : s.rxReady rst = false ↔
    (rst = true ∨ (s.cfg.configured = true ∧ s.cfg.mode = .uart ∧ s.available = true)) := by
  cases rst <;> simp [State.rxReady, and_assoc]

/-- A byte that is not accepted is as none (R78). -/
theorem clockEdge_rx_ignored (p : Pins) (s : State) (h : s.rxReady p.rst = false) :
    clockEdge p s = clockEdge { p with rx := none } s := by
  by_cases hr : p.rst = true
  · exact (clockEdge_rst hr s).trans (clockEdge_rst (p := { p with rx := none }) hr s).symm
  · rw [Bool.not_eq_true] at hr
    have hrx (u : State) : deliverRx (s.rxReady false) p.rx u = .next u := by
      rw [← hr, h]
      cases p.rx <;> rfl
    simp only [clockEdge, hrx]
    rfl

/-- No event writes the transport's queue, so the edge leaves it as `advance` does. -/
theorem step_transport {s t : State} (h : step s = .next t) :
    t.transport = s.advance.transport := by
  have kept : Kept fun u : State => u.transport = s.advance.transport :=
    { drop := fun _ hu => hu
      respond := fun _ _ _ hu => hu
      keep := fun _ _ hu => hu
      exec := fun i u v hu hv => (exec_transport hv).trans hu }
  obtain ⟨-, rfl⟩ | ⟨-, s1, s2, s3, h1, h2, h3, h4⟩ := clockEdge_parts h
  · rfl
  · have h0 : s.advance.dropResponse.transport = s.advance.transport := rfl
    exact kept.deliverCmd
      (kept.deliverRx (kept.deliverWhen (kept.deliverWhen h0 h1) h2) h3) h4

/-- Settles O13: the byte leaves its queue under the condition that delivers it. -/
theorem rxReadyDecidesAcceptance : Obligations.RxReadyDecidesAcceptance := by
  unfold Obligations.RxReadyDecidesAcceptance
  refine ⟨rxReady_eq_false_iff, clockEdge_rx_ignored, fun s t b bs hb hrx h => ?_⟩
  have hpresent : s.cycle.transport = true := by
    by_contra hn
    simp [State.pins, hn] at hrx
  rw [step_transport h]
  simp only [State.advance, hpresent, hb, Bool.true_and, List.tail_cons]
  rfl

/-! ### The output ports -/

/-- Of a number written with one byte a digit, least significant first, digit `i` is byte `i` (R77, D27). -/
theorem foldr_bytes_digit (bs : List Byte) (i : Nat) (h : i < bs.length) :
    bs.foldr (fun b acc => b.toNat + 256 * acc) 0 / 256 ^ i % 256 = bs[i].toNat := by
  induction bs generalizing i with
  | nil => exact absurd h (Nat.not_lt_zero i)
  | cons b bs ih =>
    have hb := b.isLt
    cases i with
    | zero =>
      simp only [List.foldr_cons, List.getElem_cons_zero]
      omega
    | succ i =>
      simp only [List.foldr_cons, List.getElem_cons_succ]
      rw [← ih i (by simpa using h), Nat.pow_succ', ← Nat.div_div_eq_div_mul,
        Nat.add_mul_div_left _ _ (by decide), Nat.div_eq_of_lt hb, Nat.zero_add]

theorem foldr_bytes_lt (bs : List Byte) :
    bs.foldr (fun b acc => b.toNat + 256 * acc) 0 < 256 ^ bs.length := by
  induction bs with
  | nil => simp
  | cons b bs ih =>
    have hb := b.isLt
    simp only [List.foldr_cons, List.length_cons, Nat.pow_succ']
    omega

theorem packRaw_byte (raw : Vector Byte 12) (i : Nat) (h : i < 12) :
    (packRaw raw).extractLsb' (8 * i) 8 = raw[i] := by
  have hlt : raw.toList.foldr (fun b acc => b.toNat + 256 * acc) 0 < 2 ^ 96 := by simpa using foldr_bytes_lt raw.toList
  have hdigit := foldr_bytes_digit raw.toList i (by simpa using h)
  apply BitVec.eq_of_toNat_eq
  rw [BitVec.extractLsb'_toNat, packRaw, BitVec.toNat_ofNat, Nat.mod_eq_of_lt hlt,
    Nat.shiftRight_eq_div_pow, Nat.pow_mul]
  rw [Vector.getElem_toList] at hdigit
  exact hdigit

theorem encodeMode_eq_one_iff (m : Mode) : encodeMode m = 1 ↔ m = .wiegand := by
  cases m <;> decide

/-- Settles O14: all ports but `rec_raw` are their registers by definition. -/
theorem outputPortsShowRegisters : Obligations.OutputPortsShowRegisters := by
  unfold Obligations.OutputPortsShowRegisters
  intro s rst
  exact ⟨rfl, rfl, rfl, rfl, rfl, rfl, rfl, rfl, packRaw_byte s.ro.raw, rfl,
    encodeMode_eq_one_iff s.cfg.mode, rfl⟩

/-! ### Several blocks -/

/-- Settles O19: a step of block `k` writes list index `k` alone. -/
theorem blocksShareNothing : Obligations.BlocksShareNothing := by
  unfold Obligations.BlocksShareNothing
  intro blocks k s hk
  obtain ⟨t, ht⟩ := stepAnswersNext s
  obtain ⟨hlt, -⟩ := List.getElem?_eq_some_iff.mp hk
  have hset : stepBlock k blocks = blocks.set k t := by simp only [stepBlock, hk, ht]
  rw [hset]
  exact ⟨t, ht, List.getElem?_set_self hlt, List.length_set,
    fun j hj => List.getElem?_set_ne hj.symm⟩

/-! ### One agent alone -/

section Alone

variable {s : State} {cs : List Cycle}

theorem step_host {w : EventWord} {ws : List EventWord}
    (hs : s.schedule = { rst := false, callback := false, transport := false, host := true } :: cs)
    (hw : s.host = w :: ws) :
    step s = runWord w { s with schedule := cs, host := ws, respValid := false } := by
  rw [step, clockCycle, pins_host hs hw, advance_host hs hw, clockEdge_cmd]
  rfl

theorem deliver_rx (b : Byte) (s : State) :
    deliver .rx (.uartByte b) s =
      andThen (exec (.uartByte b) s) fun t => .next (State.keepResponse s t) := rfl

theorem step_transport_ready {b : Byte} {bs : List Byte}
    (hs : s.schedule = { rst := false, callback := false, transport := true, host := false } :: cs)
    (hb : s.transport = b :: bs) (hr : s.rxReady false = true) :
    step s =
      deliver .rx (.uartByte b) { s with schedule := cs, transport := bs, respValid := false } := by
  have hready : s.advance.rxReady false = true := hr
  rw [step, clockCycle, pins_transport hs hb, clockEdge_rx, hready, advance_transport hs hb, hr]
  rfl

theorem step_transport_held {b : Byte} {bs : List Byte}
    (hs : s.schedule = { rst := false, callback := false, transport := true, host := false } :: cs)
    (hb : s.transport = b :: bs) (hr : s.rxReady false = false) :
    step s = .next { s with schedule := cs, respValid := false } := by
  have hready : s.advance.rxReady false = false := hr
  have hadvance : s.advance = { s with schedule := cs } := by
    rw [advance_transport hs hb, hr, ← hb]
    rfl
  rw [step, clockCycle, pins_transport hs hb, clockEdge_rx, hready, hadvance]
  rfl

theorem step_callback {p : Pulse} {ps : List Pulse}
    (hs : s.schedule = { rst := false, callback := true, transport := false, host := false } :: cs)
    (hp : s.callback = p :: ps) :
    step s =
      andThen
        (deliverWhen p.onD0 .d0 .wbit0 { s with schedule := cs, callback := ps, respValid := false })
        (deliverWhen p.onD1 .d1 .wbit1) := by
  rw [step, clockCycle, pins_callback hs hp, advance_callback hs hp]
  simp [clockEdge, Pins.idle, deliverRx, deliverCmd, andThen_next_right, State.dropResponse]

end Alone

/-- A bit event neither reads nor keeps what the response registers hold. -/
theorem wbit_keepResponse (v : Bool) (old s : State) :
    (State.keepResponse old s).wbit v = s.wbit v := by
  have hgate : (State.keepResponse old s).gate (some .wiegand) = s.gate (some .wiegand) := rfl
  rw [State.wbit, State.wbit, hgate]
  cases s.gate (some .wiegand) with
  | some st => rfl
  | none =>
    by_cases hc : s.wcount.toNat < 100 <;>
      simp only [State.keepResponse_wcount, Config.wgCapacity, hc, if_true, if_false] <;> rfl

/-- Settles O6, one lemma about the step for each agent. With a pulse on both lines WBIT1 runs after the response to WBIT0 was
put back, which it does not see. -/
theorem stepRunsPresentedEvent : Obligations.StepRunsPresentedEvent := by
  unfold Obligations.StepRunsPresentedEvent
  intro s cs
  refine ⟨fun w ws i hs hw hd _ => ?_, fun b bs hs hb => ⟨fun hr => ?_, step_transport_held hs hb⟩,
    fun ps hs => ⟨fun hp => ?_, fun hp => ?_, fun hp => ?_⟩⟩
  · rw [step_host hs hw, runWord_decoded hd]
  · obtain ⟨t, ht⟩ := exec_total (.uartByte b)
      { s with schedule := cs, transport := bs, respValid := false }
    refine ⟨t, ht, ?_⟩
    rw [step_transport_ready hs hb hr, deliver_rx, ht]
    rfl
  · refine ⟨_, rfl, ?_⟩
    rw [step_callback hs hp]
    rfl
  · refine ⟨_, rfl, ?_⟩
    rw [step_callback hs hp]
    rfl
  · refine ⟨_, _, rfl, rfl, ?_⟩
    rw [step_callback hs hp, ← wbit_keepResponse true]
    rfl

/-- Settles O7: the placed word is the host's next, alone in its cycle. -/
theorem placedWordRunsNext : Obligations.PlacedWordRunsNext := by
  unfold Obligations.PlacedWordRunsNext
  intro s nbits w
  have hstep : step (s.withFetchWord nbits w) =
      runWord (tableWord nbits w) { s with respValid := false } := step_host rfl rfl
  rw [hstep, runWord, decodeTableWord]
  cases decode (tableWord nbits w) <;> rfl

end Sys2Proof.Machine
end

section
/-! PROOF. The opcode map (R72 to R75): a word is its `op` above its `arg`, and on the two fields decoding and encoding undo
each other. -/

namespace Sys2Proof

/-! ### Words by their two fields -/

theorem op_append_arg (w : EventWord) : w.op ++ w.arg = w :=
  BitVec.extractLsb'_append_extractLsb'_eq_extractLsb' (by decide) |>.trans BitVec.extractLsb'_eq_self

theorem op_toNat (w : EventWord) : w.op.toNat = w.toNat / 256 := by
  have hw := w.isLt
  rw [EventWord.op, BitVec.extractLsb'_toNat, Nat.shiftRight_eq_div_pow]
  omega

theorem op_eq_ofNat {w : EventWord} {k : Nat} (h : w.op.toNat = k) : w.op = BitVec.ofNat 4 k := by
  rw [← h, BitVec.ofNat_toNat, BitVec.setWidth_eq]

theorem arg_toNat (w : EventWord) : w.arg.toNat = w.toNat % 256 := by
  rw [EventWord.arg, BitVec.extractLsb'_toNat]
  rfl

theorem decodeMode_encodeMode (m : Mode) (len : BitVec 7) :
    decodeMode ((encodeMode m ++ len).getLsbD 7) = m := by
  rw [BitVec.getLsbD_append]
  cases m <;> rfl

theorem encodeMode_decodeMode (arg : Byte) :
    encodeMode (decodeMode (arg.getLsbD 7)) ++ arg.extractLsb' 0 7 = arg := by
  revert arg
  decide

/-! ### Decoding an encoding -/

/-- Settles O1, by the event: a bare event is one word, and any other is its argument below its `op`. -/
theorem decodeEncode : Obligations.DecodeEncode := by
  unfold Obligations.DecodeEncode
  intro i _
  cases i with
  | nop | wbit0 | wbit1 | poll | readid => rfl
  | uartByte b =>
    rw [encode, decode, op_append, arg_append]
    rfl
  | config m l =>
    rw [encode, decode_config_append, decodeMode_encodeMode, BitVec.extractLsb'_append_eq_right]
  | hexdec c => rw [encode, decode_hexdec_append]

/-! ### Encoding what was decoded -/

theorem decodeBare_eq_some {i j : Instr} {arg : Byte} (h : decodeBare i arg = some j) :
    arg = 0x00 ∧ i = j := by
  unfold decodeBare at h
  split at h
  · next harg => exact ⟨harg, Option.some.inj h⟩
  · exact absurd h (by simp)

/-- Settles O2, by `op`: a bare event has no argument to lose, and any other keeps its own. -/
theorem encodeDecode : Obligations.EncodeDecode := by
  unfold Obligations.EncodeDecode
  intro w i h
  rw [← op_append_arg w]
  unfold decode at h
  split at h
  case h_9 => exact absurd h (by simp)
  case h_2 hop | h_8 hop =>
    obtain rfl := Option.some.inj h
    rw [op_eq_ofNat hop]
    rfl
  case h_7 hop =>
    obtain rfl := Option.some.inj h
    rw [op_eq_ofNat hop, encode, encodeMode_decodeMode]
  all_goals
    rename_i hop
    obtain ⟨harg, rfl⟩ := decodeBare_eq_some h
    rw [op_eq_ofNat hop, harg]
    rfl

/-! ### The illegal words -/

theorem decodeBare_eq_none {i : Instr} {arg : Byte} (h : decodeBare i arg = none) : arg ≠ 0x00 :=
  fun harg => by simp [decodeBare, harg] at h

/-- The decoder refuses no word but R74's two kinds. -/
theorem not_legal_of_decode_eq_none (w : EventWord) (h : decode w = none) : w.legal = false := by
  rw [legal_eq_false_iff]
  unfold decode at h
  split at h
  case h_2 | h_7 | h_8 => exact absurd h (by simp)
  case h_9 =>
    left
    rw [BitVec.le_def]
    show 8 ≤ w.op.toNat
    simp only [imp_false] at *
    omega
  all_goals
    rename_i hop
    exact .inr ⟨by rw [op_eq_ofNat hop]; decide, decodeBare_eq_none h⟩

theorem decode_eq_none_iff (w : EventWord) : decode w = none ↔ w.legal = false :=
  ⟨not_legal_of_decode_eq_none w, decode_eq_none_of_not_legal w⟩

/-- Settles O3: the words that are not legal, with `op` and `arg` as quotient and remainder by 256. -/
theorem decodeRefusesExactlyIllegalWords : Obligations.DecodeRefusesExactlyIllegalWords := by
  unfold Obligations.DecodeRefusesExactlyIllegalWords
  intro w
  have hop := op_toNat w
  have harg := arg_toNat w
  have hw := w.isLt
  rw [decode_eq_none_iff, legal_eq_false_iff]
  simp only [List.mem_cons, List.not_mem_nil, or_false, ← BitVec.toNat_inj, ne_eq, BitVec.le_def,
    hop, harg, BitVec.ofNat_eq_ofNat, BitVec.toNat_ofNat]
  omega

/-- Settles O4: the words are numbers. -/
theorem sampleWordsDecode : Obligations.SampleWordsDecode :=
  ⟨rfl, rfl, rfl, rfl, rfl, rfl, rfl, rfl, rfl⟩

end Sys2Proof
end

section
/-! PROOF. The buffers hold nothing past their counters (O17, O44): every operation keeps this, since a byte or a bit is written
at the counter, which then moves past it (R101, R103, R130, R132). -/

namespace Sys2Proof.Machine

variable {s t : State}

theorem zeroBytes_getElem (j : Nat) (h : j < 12) : zeroBytes[j] = 0x00 :=
  Vector.getElem_replicate h

theorem zeroBits_getElem (j : Nat) (h : j < 100) : zeroBits[j] = false :=
  Vector.getElem_replicate h

/-! ### The operations -/

theorem State.TailsClear.respond (hs : s.TailsClear) (st : Status) (d : Byte) :
    (s.respond st d).TailsClear := { hs with }

theorem State.TailsClear.clearUart (hs : s.TailsClear) : s.clearUart.TailsClear :=
  { hs with ubuf_tail := fun j h _ => zeroBytes_getElem j h }

theorem State.TailsClear.clearBits (hs : s.TailsClear) : s.clearBits.TailsClear :=
  { hs with wbuf_tail := fun j h _ => zeroBits_getElem j h }

theorem State.TailsClear.pushByte (hs : s.TailsClear) (hc : s.ucount.toNat < 12) (b : Byte) :
    (s.pushByte b).TailsClear :=
  { hs with
    ubuf_tail := fun j h hj => by
      rw [State.pushByte_ucount, ucount_succ s hc] at hj
      simp only [State.pushByte_ubuf]
      rw [Vector.getElem_setIfInBounds_ne h (by omega)]
      exact hs.ubuf_tail j h (by omega) }

theorem State.TailsClear.pushBit (hs : s.TailsClear) (hc : s.wcount.toNat < 100) (v : Bool) :
    (s.pushBit v).TailsClear :=
  { hs with
    wbuf_tail := fun j h hj => by
      rw [State.pushBit_wcount, wcount_succ s hc] at hj
      simp only [State.pushBit_wbuf]
      rw [Vector.getElem_setIfInBounds_ne h (by omega)]
      exact hs.wbuf_tail j h (by omega) }

theorem State.TailsClear.acceptByte (hs : s.TailsClear) (b : Byte) : (s.acceptByte b).TailsClear := by
  obtain ⟨-, h⟩ | ⟨-, -, h⟩ | ⟨-, -, -, h⟩ | ⟨-, -, -, hc, h⟩ | ⟨-, -, h⟩ :=
    acceptByte_cases b s <;> rw [h]
  · exact { hs.clearUart with }
  · exact hs
  · exact { hs.clearUart with }
  · exact hs.pushByte hc b
  · exact hs.clearUart

theorem configure_tailsClear (s : State) (c : Cfg) : (s.configure c).TailsClear where
  ubuf_tail j h _ := zeroBytes_getElem j h
  wbuf_tail j h _ := zeroBits_getElem j h

/-! ### Events and cycles -/

theorem exec_keeps_tailsClear {i : Instr} (hs : s.TailsClear) (h : exec i s = .next t) :
    t.TailsClear := by
  obtain ⟨st, d, rfl⟩ | ⟨b, d, -, -, -, -, rfl⟩ | ⟨v, -, -, -, hc, rfl⟩ | ⟨-, -, -, -, rfl⟩ |
    ⟨d, -, -, -, rfl⟩ | ⟨d, -, -, -, rfl⟩ | ⟨_, _, c, st, -, -, rfl⟩ := exec_cases h
  · exact hs.respond st d
  · exact (hs.acceptByte b).respond ..
  · exact (hs.pushBit hc v).respond ..
  · exact { hs with }
  · exact { hs.clearUart with }
  · exact { hs.clearBits with }
  · exact (configure_tailsClear s c).respond ..

theorem kept_tailsClear : Kept State.TailsClear where
  drop _ hs := { hs with }
  respond _ st d hs := hs.respond st d
  keep _ _ hs := { hs with }
  exec _ _ _ hs h := exec_keeps_tailsClear hs h

/-- Settles O17: each event keeps the tails clear and a reset edge clears both buffers. -/
theorem stepKeepsBufferTailsClear : Obligations.StepKeepsBufferTailsClear := by
  unfold Obligations.StepKeepsBufferTailsClear
  intro s t hs h
  exact kept_tailsClear.step (fun u => { configure_tailsClear u State.reset.cfg with })
    (fun _ hu => { hu with }) hs h

/-- Settles O44: the place of the new bit is past the counter, where the buffer holds 0 already. -/
theorem zeroBitImplicitInClearedBuffer : Obligations.ZeroBitImplicitInClearedBuffer := by
  unfold Obligations.ZeroBitImplicitInClearedBuffer
  intro s t hs h
  cases h
  obtain ⟨st, -, hw⟩ | ⟨-, -, hc, hw⟩ := wbit_cases false s
  · rw [hw, State.respond_wbuf]
  · rw [hw, State.respond_wbuf, State.pushBit_wbuf, setIfInBounds_eq_set _ _ _ hc,
      ← hs.wbuf_tail _ hc le_rfl, Vector.set_getElem_self]

end Sys2Proof.Machine
end

section
/-! PROOF. What a record stays through (R60, R106, R133, R203): cycles without reset, READID and CONFIG neither take an available
record away nor give a starved Wiegand cycle one, and the events of the other ports keep what a POLL saw. -/

namespace Sys2Proof.Machine

variable {s t : State}

/-! ### An available record -/

/-- While a record is available no byte is accepted, so of the events that end no cycle a POLL alone writes `TR`: with the
record of the bits, where a Wiegand cycle is complete. -/
theorem exec_available {i : Instr} (hi : endsCycle i = false) (ha : s.available = true)
    (h : exec i s = .next t) :
    t.available = true ∧
      (t.tr = s.tr ∨ (i = .poll ∧ s.cfg.mode = .wiegand ∧ t.tr = wiegandRecord s.cfg.len s.wbuf)) := by
  obtain ⟨st, d, rfl⟩ | ⟨_, _, -, -, -, hna, -⟩ | ⟨v, -, -, -, -, rfl⟩ | ⟨rfl, -, hm, -, rfl⟩ |
    ⟨d, rfl, -⟩ | ⟨d, rfl, -⟩ | ⟨_, _, _, _, rfl, -⟩ := exec_cases h
  · exact ⟨ha, .inl rfl⟩
  · exact absurd (hna.symm.trans ha) Bool.false_ne_true
  · exact ⟨ha, .inl rfl⟩
  · exact ⟨rfl, .inr ⟨rfl, hm, rfl⟩⟩
  all_goals exact absurd hi.symm Bool.false_ne_true

/-- In Wiegand mode the invariants say that an available record is the record of the bits (I4). -/
theorem State.Inv.tr_eq_wiegandRecord (hs : s.Inv) (ha : s.available = true)
    (hm : s.cfg.mode = .wiegand) : s.tr = wiegandRecord s.cfg.len s.wbuf := by
  obtain ⟨hj, -⟩ := hs.available_justified ha
  rwa [State.justified, hm] at hj

theorem keptQuietly_available (r : TagRecord) :
    KeptQuietly fun u : State => u.Inv ∧ u.available = true ∧ u.tr = r where
  drop _ := fun ⟨hinv, ha, hr⟩ => ⟨hinv.dropResponse, ha, hr⟩
  respond _ st d := fun ⟨hinv, ha, hr⟩ => ⟨hinv.respond st d, ha, hr⟩
  keep old _ := fun ⟨hinv, ha, hr⟩ => ⟨hinv.keepResponse old, ha, hr⟩
  exec i s t hi := fun ⟨hinv, ha, hr⟩ h => by
    obtain ⟨ha', htr | ⟨-, hm, htr⟩⟩ := exec_available hi ha h
    · exact ⟨exec_keeps_inv hinv h, ha', htr.trans hr⟩
    · exact ⟨exec_keeps_inv hinv h, ha', htr.trans ((hinv.tr_eq_wiegandRecord ha hm).symm.trans hr)⟩

/-- Settles O60: a POLL that finalizes again writes the record that stands there, as the invariants say, and no other event
writes one. -/
theorem availableRecordStays : Obligations.AvailableRecordStays := by
  unfold Obligations.AvailableRecordStays
  intro s t hinv ha he h
  obtain ⟨⟨-, ha', htr⟩, -⟩ :=
    (keptQuietly_available s.tr).step_parts ⟨hinv.advance, ha, rfl⟩ he h
  exact ⟨ha', htr⟩

/-! ### A held UART record -/

theorem keptQuietly_held (r : TagRecord) (bs : List Byte) :
    KeptQuietly fun u : State => u.Held ∧ u.tr = r ∧ u.transport = bs where
  drop _ hs := hs
  respond _ _ _ hs := hs
  keep _ _ hs := hs
  exec i s t hi := fun ⟨⟨hc, hm, ha⟩, hr, hb⟩ h => by
    have hcfg : t.cfg = s.cfg := exec_cfg_of_quiet hi h
    obtain ⟨ha', htr | ⟨-, hw, -⟩⟩ := exec_available hi ha h
    · exact ⟨⟨hcfg ▸ hc, hcfg ▸ hm, ha'⟩, htr.trans hr, (exec_transport h).trans hb⟩
    · exact absurd hw (mode_ne_wiegand hm)

/-- Settles O56: in UART mode no POLL writes a record, and `rx_ready` is 0, so the transport keeps the byte it presents. -/
theorem heldRecordStays : Obligations.HeldRecordStays := by
  unfold Obligations.HeldRecordStays
  intro s t hs he h
  have hnot (rst : Bool) : s.rxReady rst = false := (rxReady_eq_false_iff s rst).mpr (.inr hs)
  have hqueue : s.advance.transport = s.transport := by simp [State.advance, hnot]
  obtain ⟨hkept, -⟩ := (keptQuietly_held s.tr s.transport).step_parts ⟨hs, rfl, hqueue⟩ he h
  exact hkept

/-! ### A starved Wiegand cycle -/

theorem keptQuietly_starved : KeptQuietly State.Starved where
  drop _ hs := hs
  respond _ _ _ hs := hs
  keep _ _ hs := hs
  exec i s t hi := fun ⟨hc, hm, ha, hl⟩ h => by
    obtain ⟨st, d, rfl⟩ | ⟨_, _, -, -, hu, -⟩ | ⟨v, -, -, -, hn, rfl⟩ | ⟨-, -, -, hw, -⟩ |
      ⟨d, rfl, -⟩ | ⟨d, rfl, -⟩ | ⟨_, _, _, _, rfl, -⟩ := exec_cases h
    · exact ⟨hc, hm, ha, hl⟩
    · exact absurd hm (mode_ne_wiegand hu)
    · refine ⟨hc, hm, ha, ?_⟩
      rw [State.respond_wcount, State.pushBit_wcount, wcount_succ s hn]
      exact Nat.lt_succ_of_lt hl
    · rw [hw] at hl
      exact absurd hl (lt_irrefl _)
    all_goals exact absurd hi.symm Bool.false_ne_true

/-- The count is past the length, so the completion test of POLL fails (R133). -/
theorem exec_poll_starved (hs : s.Starved) : exec .poll s = .next (s.respond .ok 0x00) := by
  obtain ⟨hc, -, ha, hl⟩ := hs
  have hne : s.wcount ≠ s.cfg.len := fun hw => by
    rw [hw] at hl
    exact lt_irrefl _ hl
  rw [exec_poll_incomplete s hc (.inr hne), ha]
  rfl

/-- Settles O55: the count never comes back to the length, and a POLL in the cycle runs in a state that is starved still. -/
theorem starvedCycleStaysStarved : Obligations.StarvedCycleStaysStarved := by
  unfold Obligations.StarvedCycleStaysStarved
  intro s t hs he h
  obtain ⟨ht, u, hu, hcmd⟩ := keptQuietly_starved.step_parts hs he h
  refine ⟨ht, fun hpoll => ?_⟩
  obtain ⟨w, hw, hd⟩ := Option.bind_eq_some_iff.mp hpoll
  rw [hw, deliverCmd, runWord_decoded hd, exec_poll_starved hu] at hcmd
  cases hcmd
  exact ⟨rfl, rfl⟩

/-! ### Between a POLL and a READID -/

/-- The ports other than the command port deliver no POLL and no event that ends a cycle (R78, R197). -/
theorem instr_of_other_port {e : Event} (hp : e.port ≠ .cmd) (hw : e.wellFormed = true) :
    endsCycle e.instr = false ∧ e.instr ≠ .poll := by
  obtain ⟨p, i⟩ := e
  cases i with
  | nop | uartByte | wbit0 | wbit1 | hexdec => exact ⟨rfl, by simp⟩
  | poll | readid | config =>
    cases p with
    | cmd => exact absurd rfl hp
    | d0 | d1 | rx => exact absurd hw Bool.false_ne_true

/-- So they leave an available record and the configuration as they are. -/
theorem deliverAll_keeps_available (es : List Event) (ha : s.available = true)
    (hes : ∀ e ∈ es, e.port ≠ .cmd ∧ e.wellFormed = true) (h : deliverAll es s = .next t) :
    t.cfg = s.cfg ∧ t.available = true ∧ t.tr = s.tr := by
  induction es generalizing s with
  | nil =>
    simp only [deliverAll, Host.Outcome.next.injEq] at h
    exact h ▸ ⟨rfl, ha, rfl⟩
  | cons e es ih =>
    obtain ⟨u, hu, hrest⟩ := andThen_eq_next h
    obtain ⟨v, hv, hvu⟩ := deliver_eq_next hu
    obtain ⟨hp, hw⟩ := hes e List.mem_cons_self
    obtain ⟨hi, hnp⟩ := instr_of_other_port hp hw
    have hcfg : v.cfg = s.cfg := exec_cfg_of_quiet hi hv
    obtain ⟨hva, htr | ⟨hpoll, -⟩⟩ := exec_available hi ha hv
    case inr => exact absurd hpoll hnp
    obtain ⟨hucfg, hua, hutr⟩ : u.cfg = s.cfg ∧ u.available = true ∧ u.tr = s.tr := by
      obtain rfl | rfl := hvu <;> exact ⟨hcfg, hva, htr⟩
    obtain ⟨htcfg, hta, httr⟩ := ih hua (fun f hf => hes f (List.mem_cons_of_mem e hf)) hrest
    exact ⟨htcfg.trans hucfg, hta, httr.trans hutr⟩

/-- A POLL that answers 1 leaves a record available. -/
theorem available_of_poll (h : exec .poll s = .next t) (hok : t.respStatus = .ok)
    (hd : t.respData = 0x01) : t.cfg.configured = true ∧ t.available = true := by
  obtain ⟨-, rfl⟩ | ⟨hc, -, rfl⟩ | ⟨hc, -, -, rfl⟩ := exec_poll_cases s t h
  · exact absurd hok (by simp)
  · exact ⟨hc, by simpa [bitData] using hd⟩
  · exact ⟨hc, rfl⟩

theorem clearCycle_ro (s : State) : s.clearCycle.ro = s.ro := by
  unfold State.clearCycle
  split <;> rfl

/-- Settles O54: the record POLL answered for is available and stays so until READID takes it. -/
theorem pollThenReadidReturnsRecord : Obligations.PollThenReadidReturnsRecord := by
  unfold Obligations.PollThenReadidReturnsRecord
  intro s t es h hok hd hes
  obtain ⟨hc, ha⟩ := available_of_poll h hok hd
  obtain ⟨u, hu⟩ := deliverAll_total es t
  obtain ⟨hucfg, hua, hutr⟩ := deliverAll_keeps_available es ha hes hu
  have huc : u.cfg.configured = true := hucfg ▸ hc
  have hread := exec_readid_configured u huc
  rw [hua] at hread
  refine ⟨u, _, hu, hread, ?_, rfl, rfl⟩
  rw [State.respond_ro, clearCycle_ro, State.takeRecord_ro, hutr]

end Sys2Proof.Machine
end

section
/-! PROOF. UART records: hex fields as numerals (R82), the checksum (R107), when a record is valid (R104), and a whole frame of
twelve characters, among them those that write a manufacturer code and an id (95_test_vectors.md W4). -/

namespace Sys2Proof.Machine

/-! ### Fields and the checksum -/

/-- Settles O36: a turn of the loop is a multiplication and an addition, and a character counts four bits. -/
theorem hexFieldIsNumeral : Obligations.HexFieldIsNumeral := by
  unfold Obligations.HexFieldIsNumeral
  refine ⟨rfl, fun cs c => ?_, fun cs => ?_⟩
  · rw [hexField_snoc, hexStep_eq]
  · rw [Nat.pow_mul]
    exact hexField_lt cs

/-- Settles O37: the exclusive-OR of a list does not depend on its order. -/
theorem checksumIgnoresPairOrder : Obligations.ChecksumIgnoresPairOrder := by
  unfold Obligations.ChecksumIgnoresPairOrder
  intro a b hperm
  rw [uartChecksum_eq_foldl, uartChecksum_eq_foldl]
  exact hperm.foldl_eq 0x00

/-! ### Validity -/

/-- Settles O38: validity asks that all twelve characters are hex digits. -/
theorem nonHexCharacterNeverValid : Obligations.NonHexCharacterNeverValid := by
  unfold Obligations.NonHexCharacterNeverValid
  intro buf j h hc
  by_contra hv
  obtain ⟨-, hhex⟩ := (uartValid_iff buf).mp (eq_true_of_ne_false hv)
  exact absurd ((hhex j h).symm.trans hc) (by decide)

/-- Two pairs of hex digits that read as the same byte are the same digits. -/
theorem hexNibble_eq_of_pair_eq {a b c d : Byte}
    (h : BitVec.ofNat 8 (hexField [a, b]).1 = BitVec.ofNat 8 (hexField [c, d]).1) :
    (hexNibble a).1 = (hexNibble c).1 ∧ (hexNibble b).1 = (hexNibble d).1 := by
  have ha := hexNibble_lt a
  have hb := hexNibble_lt b
  have hc := hexNibble_lt c
  have hd := hexNibble_lt d
  have hnat := congrArg BitVec.toNat h
  simp only [hexField_pair, BitVec.toNat_ofNat] at hnat
  constructor <;> apply BitVec.eq_of_toNat_eq <;> omega

/-- Settles O39: the first ten characters and with them the checksum stay, so a record valid before and after declares the same
checksum, which leaves the changed digit its value. -/
theorem changedChecksumDigitRejected : Obligations.ChangedChecksumDigitRejected := by
  unfold Obligations.ChangedChecksumDigitRejected
  intro buf k h c hvalid hk hne
  by_contra hvalid'
  obtain ⟨hsum, hhex⟩ := (uartValid_iff buf).mp hvalid
  obtain ⟨hsum', hhex'⟩ := (uartValid_iff (buf.set k c h)).mp (eq_true_of_ne_false hvalid')
  have hsame : uartChecksum (buf.set k c h) = uartChecksum buf :=
    uartChecksum_congr _ _ fun j hj hj10 => Vector.getElem_set_ne h hj (by omega)
  have hflag : (hexNibble c).2 = (hexNibble buf[k]).2 := by
    rw [hhex k h]
    simpa using hhex' k h
  rw [hsame, hsum, cksField_eq, cksField_eq] at hsum'
  obtain ⟨h10, h11⟩ := hexNibble_eq_of_pair_eq hsum'
  obtain rfl | rfl : k = 10 ∨ k = 11 := by omega
  · exact hne (Prod.ext (by simpa using h10.symm) hflag)
  · exact hne (Prod.ext (by simpa using h11.symm) hflag)

/-! ### A frame of twelve characters -/

theorem captured_ubuf (s : State) (cs : Vector Byte 12) : (s.captured cs.toList).ubuf = cs := by
  apply Vector.ext
  intro j hj
  simp [State.captured]

/-- Settles O40: the twelve characters are captured, and the end marker finalizes their record. -/
theorem twelveCharacterFrameFinalizes : Obligations.TwelveCharacterFrameFinalizes := by
  unfold Obligations.TwelveCharacterFrameFinalizes
  intro s cs h hm ha hc
  have hlen : cs.toList.length = 12 := Vector.length_toList
  have hcap := deliverAll_captured s h hm ha cs.toList [] (by simp) hc
  have hend := acceptByte_end_full (s.captured cs.toList) rfl
    ((captured_count s cs.toList hlen.le).trans hlen)
  rw [deliverAll_frame s h hm ha, bytesOf_append, deliverAll_append, hcap, andThen_next,
    List.nil_append, deliverAll_bytesOf_cons _ _ (s.captured cs.toList) h hm ha, hend,
    captured_ubuf]
  rfl

/-! ### The round trip -/

/-- The hex digits of some bytes read as the numeral of the bytes. -/
theorem hexField_flatMap_hexPair (bs : List Byte) :
    hexField (bs.flatMap hexPair) = (bs.foldl (fun v b => 256 * v + b.toNat) 0, true) := by
  induction bs using List.reverseRecOn with
  | nil => rfl
  | append_singleton bs b ih =>
    have hsplit : (bs ++ [b]).flatMap hexPair =
        bs.flatMap hexPair ++ [hexChar (b.extractLsb' 4 4)] ++ [hexChar (b.extractLsb' 0 4)] := by
      simp [hexPair]
    have hb := b.isLt
    rw [hsplit, hexField_snoc, hexField_snoc, ih, hexStep_eq, hexStep_eq, hexNibble_hexChar,
      hexNibble_hexChar, List.foldl_append]
    simp only [List.foldl_cons, List.foldl_nil, BitVec.extractLsb'_toNat, Nat.shiftRight_eq_div_pow,
      Bool.and_self, Prod.mk.injEq, and_true]
    omega

/-- The twelve characters of `payloadChars`. -/
def payloadVector (mfr : BitVec 16) (id : BitVec 24) (cks : Byte) : Vector Byte 12 :=
  ⟨(payloadChars mfr id cks).toArray, rfl⟩

theorem payloadVector_toList (mfr : BitVec 16) (id : BitVec 24) (cks : Byte) :
    (payloadVector mfr id cks).toList = payloadChars mfr id cks := rfl

/-- Only hex digits stand in a payload, and no digit is a marker (R80). -/
theorem payloadChars_no_marker (mfr : BitVec 16) (id : BitVec 24) (cks : Byte) :
    ∀ c ∈ payloadChars mfr id cks, c ≠ 0x02 ∧ c ≠ 0x03 := by
  intro c hc
  obtain ⟨b, -, hb⟩ := List.mem_flatMap.mp hc
  simp only [hexPair, List.mem_cons, List.not_mem_nil, or_false] at hb
  obtain rfl | rfl := hb <;> exact hexChar_ne_marker _

theorem mfrField_payload (mfr : BitVec 16) (id : BitVec 24) (cks : Byte) :
    mfrField (payloadVector mfr id cks) = (mfr.toNat, true) := by
  have hm := mfr.isLt
  show hexField ([mfr.extractLsb' 8 8, mfr.extractLsb' 0 8].flatMap hexPair) = _
  rw [hexField_flatMap_hexPair]
  simp only [List.foldl_cons, List.foldl_nil, BitVec.extractLsb'_toNat, Nat.shiftRight_eq_div_pow,
    Prod.mk.injEq, and_true]
  omega

theorem idField_payload (mfr : BitVec 16) (id : BitVec 24) (cks : Byte) :
    idField (payloadVector mfr id cks) = (id.toNat, true) := by
  have hi := id.isLt
  show hexField ([id.extractLsb' 16 8, id.extractLsb' 8 8, id.extractLsb' 0 8].flatMap hexPair) = _
  rw [hexField_flatMap_hexPair]
  simp only [List.foldl_cons, List.foldl_nil, BitVec.extractLsb'_toNat, Nat.shiftRight_eq_div_pow,
    Prod.mk.injEq, and_true]
  omega

theorem cksField_payload (mfr : BitVec 16) (id : BitVec 24) (cks : Byte) :
    cksField (payloadVector mfr id cks) = (cks.toNat, true) := by
  show hexField ([cks].flatMap hexPair) = _
  rw [hexField_flatMap_hexPair]
  simp

/-- The pairs under the checksum are the five bytes that were written. -/
theorem uartChecksum_payload (mfr : BitVec 16) (id : BitVec 24) (cks : Byte) :
    uartChecksum (payloadVector mfr id cks) = xorBytes (recordBytes mfr id) := by
  have hpairs : (List.range 5).map (pairField (payloadVector mfr id cks)) =
      (recordBytes mfr id).map fun b => BitVec.ofNat 8 (hexField (hexPair b)).1 := rfl
  rw [uartChecksum_eq_foldl, hpairs]
  simp only [hexField_hexPair, List.map_id']
  rfl

/-- The record of a written payload reads back what was written, and is valid when the declared checksum is that of the bytes
under it. -/
theorem uartRecord_payload (mfr : BitVec 16) (id : BitVec 24) (cks : Byte) :
    uartRecord (payloadVector mfr id cks) =
      { mfr := mfr, id := id, cks := cks, valid := xorBytes (recordBytes mfr id) == cks
        raw := payloadVector mfr id cks } := by
  simp only [uartRecord, uartValid, mfrField_payload, idField_payload, cksField_payload,
    uartChecksum_payload, BitVec.ofNat_toNat, BitVec.setWidth_eq, Bool.and_true]

/-- Settles O42: the frame of the twelve characters leaves their record. -/
theorem uartRoundTrip : Obligations.UartRoundTrip := by
  unfold Obligations.UartRoundTrip
  intro s mfr id h hm ha
  have hrun := twelveCharacterFrameFinalizes s
    (payloadVector mfr id (xorBytes (recordBytes mfr id))) h hm ha (payloadChars_no_marker mfr id _)
  rw [uartRecord_payload] at hrun
  exact ⟨_, hrun, rfl, rfl, rfl, rfl, beq_self_eq_true _, rfl⟩

end Sys2Proof.Machine
end

section
/-! PROOF. The parities of a 26-bit frame (R136), as exclusive-ORs of its two halves: any one inverted bit inverts one of them,
and delivered bits are read off them. -/

namespace Sys2Proof.Machine

/-! ### Exclusive-ORs of lists -/

theorem xorBits_cons (b : Bool) (bits : List Bool) : xorBits (b :: bits) = xor b (xorBits bits) := by
  rw [xorBits_eq_parity, xorBits_eq_parity, List.map_cons, List.sum_cons]
  rcases Nat.mod_two_eq_zero_or_one (bits.map Bool.toNat).sum with h | h <;> cases b <;>
    simp [h, Nat.add_mod]

theorem xorBits_set_not (bits : List Bool) (i : Nat) (h : i < bits.length) :
    xorBits (bits.set i !bits[i]) = !xorBits bits := by
  induction bits generalizing i with
  | nil => exact absurd h (Nat.not_lt_zero i)
  | cons b bits ih =>
    cases i with
    | zero => simp [xorBits_cons]
    | succ i =>
      simp only [List.length_cons, Nat.add_lt_add_iff_right] at h
      simp [xorBits_cons, ih i h]

/-- An inverted bit inverts the exclusive-OR of the bits before `n` when it is one of them. -/
theorem xorBits_take_set_not (bits : List Bool) (i n : Nat) (h : i < bits.length) :
    xorBits ((bits.set i !bits[i]).take n) = xor (decide (i < n)) (xorBits (bits.take n)) := by
  rw [List.take_set]
  by_cases hi : i < n
  · have hlt : i < (bits.take n).length := by rw [List.length_take]; omega
    rw [← List.getElem_take (h := hlt), xorBits_set_not _ i hlt]
    simp [hi]
  · rw [List.set_eq_of_length_le (by rw [List.length_take]; omega)]
    simp [hi]

/-- And that of the bits from `n` on when it is one of those. -/
theorem xorBits_drop_set_not (bits : List Bool) (i n : Nat) (h : i < bits.length) :
    xorBits ((bits.set i !bits[i]).drop n) = xor (decide (n ≤ i)) (xorBits (bits.drop n)) := by
  rw [List.drop_set]
  by_cases hi : i < n
  · simp [hi, Nat.not_le.mpr hi]
  · have hlt : i - n < (bits.drop n).length := by rw [List.length_drop]; omega
    have hbit : bits[i] = (bits.drop n)[i - n] := by simp [Nat.add_sub_cancel' (Nat.not_lt.mp hi)]
    rw [if_neg hi, hbit, xorBits_set_not _ _ hlt]
    simp [Nat.not_lt.mp hi]

/-- A count of ones has the parity of one more bit exactly when all of them together have even parity. -/
theorem sum_parity_beq (b : Bool) (bits : List Bool) :
    ((bits.map Bool.toNat).sum % 2 == b.toNat) = !xorBits (b :: bits) := by
  rw [xorBits_cons, xorBits_eq_parity]
  rcases Nat.mod_two_eq_zero_or_one (bits.map Bool.toNat).sum with h | h <;> cases b <;> simp [h]

/-! ### The parities of a frame -/

/-- The two tests of R136 in one form: bits 0 to 12 have even parity and bits 13 to 25 odd parity. -/
theorem parity26_of_bits (wbuf : Vector Bool 100) (bits : List Bool)
    (hb : ∀ j (hj : j < bits.length), bitAt wbuf j = (bits[j]).toNat) (hl : bits.length = 26) :
    parity26 wbuf = (!xorBits (bits.take 13) && xorBits (bits.drop 13)) := by
  have hfront : bits.take 13 = bits[0] :: (bits.drop 1).take 12 :=
    congrArg (List.take 13) (List.getElem_cons_drop (as := bits) (i := 0) (by omega)).symm
  have hlen : 12 < (bits.drop 13).length := by rw [List.length_drop]; omega
  have hlast : bits[25] = (bits.drop 13)[12] := by simp
  have hback : xorBits (bits.drop 13) = xorBits (bits[25] :: (bits.drop 13).take 12) :=
    calc xorBits (bits.drop 13)
      _ = xorBits ((bits.drop 13).take 12 ++ [bits[25]]) := by
        rw [hlast, List.take_append_getElem, List.take_of_length_le (by rw [List.length_drop]; omega)]
      _ = xor (xorBits ((bits.drop 13).take 12)) bits[25] := by simp [xorBits]
      _ = xorBits (bits[25] :: (bits.drop 13).take 12) := by rw [xorBits_cons, Bool.xor_comm]
  rw [parity26, popcount_eq_sum wbuf bits hb 1 12 (by omega),
    popcount_eq_sum wbuf bits hb 13 24 (by omega), hb 0 (by omega), hb 25 (by omega), bne,
    sum_parity_beq, sum_parity_beq, Bool.not_not, hfront, hback]

/-- The buffer's own first 26 bits are such a list. -/
theorem bitAt_eq_take (wbuf : Vector Bool 100) (j : Nat) (hj : j < (wbuf.toList.take 26).length) :
    bitAt wbuf j = ((wbuf.toList.take 26)[j]).toNat := by
  rw [List.length_take, Vector.length_toList] at hj
  rw [bitAt_eq wbuf j (by omega), List.getElem_take, Vector.getElem_toList]

/-- Settles O46: of the two parities the inverted bit enters one and leaves the other. -/
theorem oneFlippedBitFailsParity : Obligations.OneFlippedBitFailsParity := by
  unfold Obligations.OneFlippedBitFailsParity
  intro wbuf p h hp hparity
  rw [parity26_of_bits _ _ (bitAt_eq_take _) (by simp)] at hparity ⊢
  have hlen : p < (wbuf.toList.take 26).length := by
    rw [List.length_take, Vector.length_toList]
    omega
  have hset : (wbuf.set p (!wbuf[p]) h).toList.take 26 =
      (wbuf.toList.take 26).set p !(wbuf.toList.take 26)[p] := by
    rw [Vector.toList_set, List.take_set, List.getElem_take, Vector.getElem_toList]
  rw [Bool.and_eq_true, Bool.not_eq_true'] at hparity
  obtain ⟨heven, hodd⟩ := hparity
  rw [hset, xorBits_take_set_not _ _ _ hlen, xorBits_drop_set_not _ _ _ hlen, heven, hodd]
  by_cases hfront : p < 13
  · simp [hfront]
  · simp [hfront, Nat.not_lt.mp hfront]

/-! ### Delivered bits -/

theorem wiegandRecord_26_of_bits (wbuf : Vector Bool 100) (bits : List Bool)
    (hb : ∀ j (hj : j < bits.length), bitAt wbuf j = (bits[j]).toNat) (hl : bits.length = 26) :
    wiegandRecord 26 wbuf = {
      mfr := 0, id := BitVec.ofNat 24 (bitsValue ((bits.drop 1).take 24)), cks := 0
      valid := !xorBits (bits.take 13) && xorBits (bits.drop 13)
      raw := Vector.replicate 12 0x00 } := by
  rw [wiegandRecord, if_neg (by decide), if_pos rfl, field_eq_bitsValue wbuf bits hb 1 24 (by omega),
    parity26_of_bits wbuf bits hb hl]
  rfl

/-- Settles O48: the POLL after the 26th bit finalizes the record of the delivered bits. -/
theorem twentySixBitFrameExtracted : Obligations.TwentySixBitFrameExtracted := by
  unfold Obligations.TwentySixBitFrameExtracted
  intro s bits h hm hlen hw hl
  obtain ⟨u, hfull, hbits, hrun⟩ :=
    deliverAll_wbits_poll s bits h hm hw (by rw [hlen, hl]; rfl) (by omega)
  rw [hlen] at hfull hrun
  refine ⟨_, hrun, wiegandRecord_26_of_bits u.wbuf bits hbits hl, rfl, ?_, rfl, rfl⟩
  rw [State.respond_wcount, State.finalize_wcount, hfull]

end Sys2Proof.Machine
end

section
/-! PROOF. POLL twice (R58), and what READID leaves (R166, R211, R215). -/

namespace Sys2Proof.Machine

theorem not_complete {s : State} (h : s.complete = false) :
    s.cfg.mode = .uart ∨ s.wcount ≠ s.cfg.len := by
  cases hm : s.cfg.mode with
  | uart => exact .inl rfl
  | wiegand =>
    refine .inr fun hw => ?_
    rw [(complete_iff s).mpr ⟨hm, hw⟩] at h
    exact absurd h.symm Bool.false_ne_true

/-- Settles O50: an answer alone changes nothing that POLL reads, and after a finalization the cycle is complete still. -/
theorem pollIdempotent : Obligations.PollIdempotent := by
  unfold Obligations.PollIdempotent
  intro s t h
  obtain ⟨hc, rfl⟩ | ⟨hc, hi, rfl⟩ | ⟨hc, hm, hw, rfl⟩ := exec_poll_cases s t h
  · exact exec_unconfigured .poll _ rfl hc
  · exact exec_poll_incomplete _ hc (not_complete hi)
  · exact exec_poll_complete _ hc hm hw

/-- Settles O53, by the mode: READID clears the active decoder, and the invariants say that the other is clear. -/
theorem readidLeavesFreshCycle : Obligations.ReadidLeavesFreshCycle := by
  unfold Obligations.ReadidLeavesFreshCycle
  intro s hs hc
  rw [exec_readid_configured s hc, State.clearCycle, State.takeRecord_cfg]
  cases hm : s.cfg.mode with
  | uart =>
    obtain ⟨hcount, hbuf⟩ := hs.uart_bits_clear hm
    simp only [State.takeRecord, State.clearUart, State.respond, hcount, hbuf]
    rfl
  | wiegand =>
    have hidle := hs.wiegand_uart_idle hm
    obtain ⟨hcount, hbuf⟩ := hs.idle_clear hidle
    simp only [State.takeRecord, State.clearBits, State.respond, hidle, hcount, hbuf]
    rfl

/-- Settles O52: it is the fresh cycle of O53, and what READID takes is ZeroRecord (I3). -/
theorem readidWithNothingReturnsZeroRecord : Obligations.ReadidWithNothingReturnsZeroRecord := by
  unfold Obligations.ReadidWithNothingReturnsZeroRecord
  intro s hs hc ha
  refine ⟨_, readidLeavesFreshCycle s hs hc, hs.unavailable_zero ha, rfl, ?_, rfl, rfl, rfl, rfl⟩
  simp [ha]

end Sys2Proof.Machine
end
